-- ==== Sys2Proof/Word.lean ====
section
/-! DEFINITION. The word types of the FCU: a payload or text byte, the 32-bit command word (rule R55),
the 128-bit BITS register (rules R20, R23) and a text (rule R14). -/

namespace Sys2Proof

/-- One byte of a payload or a text (rules R14, R55). -/
abbrev Byte := BitVec 8

/-- A command word (rule R55). -/
abbrev Word := BitVec 32

/-- The width of the BITS register: 128 because N is at most 128 (rules R7, R23). -/
abbrev Bits := BitVec 128

/-- A text: a finite sequence of ASCII bytes, first character first (rules R14, R44). Its length is the
TLEN of rule R73; there is no terminator. -/
abbrev Text := List Byte

end Sys2Proof
end

