-- ==== Sys2Proof/Syntax.lean ====
section
/-! DEFINITION. The fourteen commands of the FCU, one constructor per row of the opcode table (rule R64). -/

namespace Sys2Proof

/-- A command with its operand fields (rules R56 to R64). The payload of format P is the operand itself;
the LEN field is its length (rule R62). -/
inductive Instr where
  /-- CONFIG WE, WM (rule R86). -/
  | config (we wm : BitVec 8)
  /-- RDFMT (rule R88). -/
  | rdfmt
  /-- ENCODE text (rule R100). -/
  | encode (text : Text)
  /-- DECODE (rule R130). -/
  | decode
  /-- LDBITS value; the payload is the value's bytes, most significant first (rules R43, R151). -/
  | ldbits (payload : Text)
  /-- RDBITS (rule R152). -/
  | rdbits
  /-- TOGGLE IDX (rule R153). -/
  | toggle (idx : BitVec 8)
  /-- SETRANGE IDX, V (rule R155). -/
  | setrange (idx : BitVec 8) (v : Bool)
  /-- SETALL V (rule R157). -/
  | setall (v : Bool)
  /-- INVERT (rule R158). -/
  | invert
  /-- GROUPED (rule R165). -/
  | grouped
  /-- HEX (rule R167). -/
  | hex
  /-- CHARS (rule R170). -/
  | chars
  /-- RDSTAT (rule R188). -/
  | rdstat
deriving DecidableEq, Repr

end Sys2Proof
end

