-- ==== Sys2Proof/WellFormed.lean ====
section
/-! DEFINITION. Which terms of `Instr` are commands: every operand field has its width by its type, so the one
check left is that the payload of format P has a length that the 16-bit LEN field can carry (rule R62). -/

namespace Sys2Proof

/-- A payload length that LEN can carry: 0 ≤ LEN ≤ 65535 (rule R62). -/
def lenFits (payload : Text) : Bool := decide (payload.length ≤ 65535)

/-- The term is a command of rule R64. -/
def Instr.wellFormed : Instr → Bool
  | .encode text => lenFits text
  | .ldbits payload => lenFits payload
  | .config _ _ => true
  | .rdfmt => true
  | .decode => true
  | .rdbits => true
  | .toggle _ => true
  | .setrange _ _ => true
  | .setall _ => true
  | .invert => true
  | .grouped => true
  | .hex => true
  | .chars => true
  | .rdstat => true

end Sys2Proof
end

