-- ==== Sys2Proof/Decode.lean ====
section
/-! DEFINITION. The command encoding of `30_encoding.md`: opcode map, formats, operand fields, the decoder of rule
R65 (total, rejecting by name), and the encoder written from the same tables. -/

namespace Sys2Proof

/-- The rows of the opcode map (rule R64). -/
inductive Opcode where
  | config | rdfmt | encode | decode | ldbits | rdbits | toggle
  | setrange | setall | invert | grouped | hex | chars | rdstat
deriving DecidableEq, Repr

/-- The six command formats (rules R56 to R62). -/
inductive Format where
  | z | f | x | xv | v | p
deriving DecidableEq, Repr

/-- Why a word and payload are no command (rule R65). Each is illegal: the step raises ILLEGAL_CMD. -/
inductive Reject where
  /-- No row of rule R64 has this opcode (rule R66). -/
  | unknownOpcode
  /-- A reserved bit of the row's format is 1 (rules R65, R66). -/
  | reservedBit
  /-- The payload's length is not LEN (format P) or not 0 (the others) (rules R62, R65). -/
  | payloadLength
deriving DecidableEq, Repr

/-- The opcode numbers of rule R64. -/
def Opcode.code : Opcode → BitVec 8
  | .config => 0x01
  | .rdfmt => 0x02
  | .encode => 0x03
  | .decode => 0x04
  | .ldbits => 0x05
  | .rdbits => 0x06
  | .toggle => 0x07
  | .setrange => 0x08
  | .setall => 0x09
  | .invert => 0x0A
  | .grouped => 0x0B
  | .hex => 0x0C
  | .chars => 0x0D
  | .rdstat => 0x0E

/-- The row of rule R64 with a given opcode number; every other number is illegal (rule R66). -/
def rowOf (op : BitVec 8) : Option Opcode :=
  match op.toNat with
  | 0x01 => some .config
  | 0x02 => some .rdfmt
  | 0x03 => some .encode
  | 0x04 => some .decode
  | 0x05 => some .ldbits
  | 0x06 => some .rdbits
  | 0x07 => some .toggle
  | 0x08 => some .setrange
  | 0x09 => some .setall
  | 0x0A => some .invert
  | 0x0B => some .grouped
  | 0x0C => some .hex
  | 0x0D => some .chars
  | 0x0E => some .rdstat
  | _ => none

/-- The format of each row (rule R64). -/
def Opcode.format : Opcode → Format
  | .config => .f
  | .encode => .p
  | .ldbits => .p
  | .toggle => .x
  | .setrange => .xv
  | .setall => .v
  | .rdfmt => .z
  | .decode => .z
  | .rdbits => .z
  | .invert => .z
  | .grouped => .z
  | .hex => .z
  | .chars => .z
  | .rdstat => .z

/-- The bits of a word that a format reserves; each must be 0 (rules R56 to R62). -/
def reservedBits : Format → Word
  | .z => 0x00FFFFFF
  | .f => 0x00FF0000
  | .x => 0x00FFFF00
  | .xv => 0x00FFFE00
  | .v => 0x00FFFEFF
  | .p => 0x00FF0000

/-- OP = W⟨31:24⟩ (rule R55). -/
def fieldOp (w : Word) : BitVec 8 := w.extractLsb' 24 8
/-- WE = W⟨15:8⟩ (rule R63). -/
def fieldWE (w : Word) : BitVec 8 := w.extractLsb' 8 8
/-- WM = W⟨7:0⟩ (rule R63). -/
def fieldWM (w : Word) : BitVec 8 := w.extractLsb' 0 8
/-- IDX = W⟨7:0⟩ (rule R63). -/
def fieldIdx (w : Word) : BitVec 8 := w.extractLsb' 0 8
/-- V = W⟨8⟩ (rules R61, R63). -/
def fieldV (w : Word) : Bool := w.getLsbD 8
/-- LEN = W⟨15:0⟩ (rules R62, R63). -/
def fieldLen (w : Word) : BitVec 16 := w.extractLsb' 0 16

/-- How many payload bytes a format requires: LEN for P, none for the others (rules R62, R65, R68). -/
def payloadLen (fmt : Format) (w : Word) : Nat :=
  match fmt with
  | .p => (fieldLen w).toNat
  | _ => 0

/-- The row's command with its operand fields (rules R63, R65). -/
def Opcode.instr (op : Opcode) (w : Word) (payload : Text) : Instr :=
  match op with
  | .config => .config (fieldWE w) (fieldWM w)
  | .rdfmt => .rdfmt
  | .encode => .encode payload
  | .decode => .decode
  | .ldbits => .ldbits payload
  | .rdbits => .rdbits
  | .toggle => .toggle (fieldIdx w)
  | .setrange => .setrange (fieldIdx w) (fieldV w)
  | .setall => .setall (fieldV w)
  | .invert => .invert
  | .grouped => .grouped
  | .hex => .hex
  | .chars => .chars
  | .rdstat => .rdstat

/-- Command decode (rule R65): total, and each way of being illegal has its name. -/
def decode (w : Word) (payload : Text) : Except Reject Instr :=
  match rowOf (fieldOp w) with
  | none => .error .unknownOpcode
  | some op =>
    if w &&& reservedBits op.format ≠ 0 then .error .reservedBit
    else if payload.length ≠ payloadLen op.format w then .error .payloadLength
    else .ok (op.instr w payload)

/-! The encoder, from the same tables. -/

/-- The row of a command (rule R64). -/
def Instr.opcode : Instr → Opcode
  | .config _ _ => .config
  | .rdfmt => .rdfmt
  | .encode _ => .encode
  | .decode => .decode
  | .ldbits _ => .ldbits
  | .rdbits => .rdbits
  | .toggle _ => .toggle
  | .setrange _ _ => .setrange
  | .setall _ => .setall
  | .invert => .invert
  | .grouped => .grouped
  | .hex => .hex
  | .chars => .chars
  | .rdstat => .rdstat

/-- Bits 23..0 of the command word (rules R56 to R62). -/
def Instr.operandBits : Instr → BitVec 24
  | .config we wm => 0#8 ++ we ++ wm
  | .encode text => 0#8 ++ BitVec.ofNat 16 text.length
  | .ldbits payload => 0#8 ++ BitVec.ofNat 16 payload.length
  | .toggle idx => 0#16 ++ idx
  | .setrange idx v => 0#15 ++ BitVec.ofBool v ++ idx
  | .setall v => 0#15 ++ BitVec.ofBool v ++ 0#8
  | .rdfmt => 0
  | .decode => 0
  | .rdbits => 0
  | .invert => 0
  | .grouped => 0
  | .hex => 0
  | .chars => 0
  | .rdstat => 0

/-- The command word W of a command (rules R55 to R62). -/
def commandWord (i : Instr) : Word := i.opcode.code ++ i.operandBits

/-- The payload PL of a command: empty but for format P (rules R55, R62). -/
def commandPayload : Instr → Text
  | .encode text => text
  | .ldbits payload => payload
  | _ => []

/-- The pair (W, PL) of a command (rule R55). -/
def encode (i : Instr) : Word × Text := (commandWord i, commandPayload i)

/-! The opcode table's numbering of an instruction's bits (log 12). -/

/-- The command word of an instruction whose bits are `w`: its low 32 bits. -/
def tableWord (nbits w : Nat) : Word := BitVec.ofNat 32 (w % 2 ^ nbits)

/-- `n` bytes of a number, the lowest byte first. -/
def lowBytes : Nat → Nat → Text
  | 0, _ => []
  | n + 1, v => BitVec.ofNat 8 v :: lowBytes n (v / 256)

/-- The payload of an instruction whose bits are `w`: as many bytes as the row's format asks for (or as `nbits`
gives, if more), bit 32 of `w` the least significant bit of the first, every bit above `nbits` 0. -/
def tablePayload (nbits w : Nat) : Text :=
  let asked :=
    match rowOf (fieldOp (tableWord nbits w)) with
    | some op => payloadLen op.format (tableWord nbits w)
    | none => 0
  lowBytes (max asked ((nbits - 32 + 7) / 8)) (w % 2 ^ nbits / 2 ^ 32)

/-- The instruction the decoder reads from an instruction whose bits are `w`, numbered as the opcode table numbers
them (log 12). -/
def decodeTableWord (nbits w : Nat) : Option Instr :=
  (decode (tableWord nbits w) (tablePayload nbits w)).toOption

end Sys2Proof
end

