-- ==== Sys2Proof/Machine/State.lean ====
section
/-! DEFINITION. The state of the FCU (rule R20), the host's moves and the unit's responses as data (rules R70 to R74,
R200), the reasons to stop (none is ever used), and the state after hardware reset (rules R37, R200, R202). -/

namespace Sys2Proof.Machine

/-- The five classifications (rules R74, R90). -/
inductive FpClass where
  | normal | denormal | zero | infinity | nan
deriving DecidableEq, Repr

/-- The fault causes (rule R184). -/
inductive FaultCause where
  | illegalCmd | notConfigured | badFormat | badIndex | badLength | badValue
deriving DecidableEq, Repr

/-- The data fields of DECODE (rules R71, R72, R130). EXP2 and EXP10 are two's complement. TEXT is the list of its
bytes and TLEN that list's length (rule R73). -/
structure Decoded where
  cls : FpClass
  sign : Bool
  sig : BitVec 113
  exp2 : BitVec 16
  p : BitVec 5
  coef : BitVec 100
  exp10 : BitVec 16
  text : Text
deriving DecidableEq, Repr

/-- The data fields of one of the four values of CHARS (rules R71, R72, R170). -/
structure Characteristic where
  sig : BitVec 113
  exp2 : BitVec 16
  coef : BitVec 100
  exp10 : BitVec 16
  text : Text
deriving DecidableEq, Repr

/-- The data fields of a response with STATUS = OK (rule R71), each of the width of rule R72. EMIN, EXP2 and EXP10
are two's complement. -/
inductive RespData where
  /-- CONFIG: BIAS, EMIN, EMAX, N, BITS. -/
  | configured (bias : BitVec 14) (emin : BitVec 15) (emax : BitVec 14) (n : BitVec 8) (bits : Bits)
  /-- RDFMT: WE, WM, BIAS, EMIN, EMAX, N. -/
  | format (we : BitVec 4) (wm : BitVec 7) (bias : BitVec 14) (emin : BitVec 15) (emax : BitVec 14) (n : BitVec 8)
  /-- ENCODE, LDBITS, RDBITS, TOGGLE, SETRANGE, SETALL, INVERT: BITS. -/
  | bits (bits : Bits)
  /-- DECODE. -/
  | decoded (value : Decoded)
  /-- GROUPED, HEX: TEXT. -/
  | text (text : Text)
  /-- CHARS: BIAS, P and the four values EPS, MAXN, MINN, MIND. -/
  | chars (bias : BitVec 14) (p : BitVec 5) (eps maxn minn mind : Characteristic)
  /-- RDSTAT: CFGV, FAULT, FCAUSE, FCMD. -/
  | status (cfgv fault : Bool) (fcause : BitVec 3) (fcmd : Word)
deriving DecidableEq, Repr

/-- A response: its STATUS and, only when that is OK, its data fields (rules R70, R71). -/
inductive Response where
  /-- STATUS 0, OK. -/
  | ok (data : RespData)
  /-- STATUS 1, INPUT_ERROR (ENCODE only, rule R108). -/
  | inputError
  /-- STATUS 2, FAULT: this command raised a fault (rule R183). -/
  | fault
  /-- STATUS 3, HALTED: the command was ignored (rule R185). -/
  | halted
deriving DecidableEq, Repr

/-- A move of the host: a command, which is a word and a payload (rule R55), or a hardware reset, "a second
constructor of the host's move" (rule R200). -/
inductive HostMove where
  | command (w : Word) (payload : Text)
  | reset
deriving DecidableEq, Repr

/-- The state: the seven elements of rule R20 and the two lists that stand for the transaction-level interface
(logs 2 and 3). -/
structure State where
  /-- CFGV, a format is configured (rules R20, R30). -/
  cfgv : Bool
  /-- EXPW, the exponent width (rules R20, R31). -/
  expw : BitVec 4
  /-- MANW, the mantissa width (rules R20, R31). -/
  manw : BitVec 7
  /-- BITS, the bit string as `val(B)`, right-aligned (rules R20, R23). -/
  bits : Bits
  /-- FAULT, the halted state (rules R20, R30). -/
  fault : Bool
  /-- FCAUSE, the cause code of the first fault (rules R20, R31, R32). -/
  fcause : BitVec 3
  /-- FCMD, the command word of the first fault (rules R20, R31, R32). -/
  fcmd : Word
  /-- DESIGN CHOICE (log 2): the model's own field, the host's moves not yet taken, oldest first. -/
  pending : List HostMove
  /-- DESIGN CHOICE (log 3): the model's own field, the responses given so far, oldest first. -/
  responses : List Response
deriving DecidableEq, Repr

/-- The reasons the model stops with a fault: none. The spec's faults are states the unit goes on in (rules R183,
R185), and every command has one outcome in every state (log 14). -/
inductive Fault
deriving DecidableEq, Repr

/-- The reasons the model refuses an instruction. -/
inductive Refusal where
  /-- Raised only by an arm of `exec` whose instruction has no meaning yet; no arm does. Safe. -/
  | notModelled (mnemonic : String)
deriving DecidableEq, Repr

/-- The state after hardware reset (rules R37, R200, R202): CFGV, FAULT, FCAUSE and FCMD are 0. EXPW, MANW and BITS
hold "no value" in the spec: DESIGN CHOICE 0 (log 1; unsafe), which no command can observe while CFGV = 0. -/
def State.reset : State where
  cfgv := false
  expw := 0
  manw := 0
  bits := 0
  fault := false
  fcause := 0
  fcmd := 0
  pending := []
  responses := []

end Sys2Proof.Machine
end

