-- ==== Sys2Proof/Machine/Ops.lean ====
section
/-! DEFINITION. The operations every command shares: the codes a response and the fault registers carry, answering,
raising a fault (rule R183), leaving it again by hardware reset (rules R189, R200), taking the host's next move, and
writing BITS. -/

namespace Sys2Proof.Machine

/-- The STATUS codes (rule R70). -/
def Response.statusCode : Response → BitVec 2
  | .ok _ => 0
  | .inputError => 1
  | .fault => 2
  | .halted => 3

/-- The CLASS codes (rule R74). -/
def FpClass.code : FpClass → BitVec 3
  | .normal => 0
  | .denormal => 1
  | .zero => 2
  | .infinity => 3
  | .nan => 4

/-- The cause codes (rule R184); 0 means no fault and 7 is never written. -/
def FaultCause.code : FaultCause → BitVec 3
  | .illegalCmd => 1
  | .notConfigured => 2
  | .badFormat => 3
  | .badIndex => 4
  | .badLength => 5
  | .badValue => 6

/-- `respond(status, fields…)`: a command ends with its one response (rules R11, R70). -/
def respond (r : Response) (s : State) : State :=
  { s with responses := s.responses ++ [r] }

/-- `raise Fault(cause)` by a command with word `w` (rule R183): latch FAULT, FCAUSE and FCMD, answer FAULT, and
write nothing else. There is no handler, no vector and no saved program counter. -/
def raiseFault (cause : FaultCause) (w : Word) (s : State) : State :=
  respond .fault { s with fault := true, fcause := cause.code, fcmd := w }

/-- Hardware reset (rules R200, R202), the only way out of the halted state (rule R189): every register goes to its
reset value. The two lists of the host's interface are the host's and stay (log 3). -/
def hardwareReset (s : State) : State :=
  { State.reset with pending := s.pending, responses := s.responses }

/-- Take the host's next move: the oldest waiting one, and the state without it; none when the host has issued
nothing (rules R18, R49, R212). -/
def nextMove (s : State) : Option (HostMove × State) :=
  match s.pending with
  | [] => none
  | move :: rest => some (move, { s with pending := rest })

/-- A word and payload that are no command (rules R65, R66): HALTED in a halted unit, else ILLEGAL_CMD (rule R187,
checks 1 and 2). -/
def rejectCommand (w : Word) (s : State) : State :=
  if s.fault then respond .halted s else raiseFault .illegalCmd w s

/-- Write a new bit string and answer with it (rules R150, R151, R153 to R158). -/
def writeBits (v : Bits) (s : State) : State :=
  respond (.ok (.bits v)) { s with bits := v }

/-- The format-change reset (rules R25, R86, R203): the new widths, CFGV set and every bit zero. -/
def setFormat (we : BitVec 4) (wm : BitVec 7) (s : State) : State :=
  { s with cfgv := true, expw := we, manw := wm, bits := 0 }

end Sys2Proof.Machine
end

