-- ==== Sys2Proof/Machine/Flags.lean ====
section
/-! DEFINITION. The two flags, FAULT and CFGV (rule R29), as the checks that come before a command's own (rule R187,
checks 1 and 3). No command sets a condition code (rule R29); FAULT is set by `raiseFault` alone and CFGV by
`setFormat` alone (rule R30). -/

namespace Sys2Proof.Machine

/-- Check 1 of rule R187: a halted unit answers HALTED and changes nothing (rule R185). -/
def whenLive (s : State) (action : State → State) : State :=
  if s.fault then respond .halted s else action s

/-- Checks 1 and 3 of rule R187, in their order: halted, then not configured (rule R186), then the command. -/
def whenReady (w : Word) (s : State) (action : State → State) : State :=
  whenLive s fun s => if s.cfgv then action s else raiseFault .notConfigured w s

end Sys2Proof.Machine
end

