-- ==== Sys2Proof/Config.lean ====
section
/-! DEFINITION. The build-time parameters of rule R7 and the one open parameter, TEXT_MAX (decision D12). -/

namespace Sys2Proof.Config

/-- WE_MIN (rules R6, R7). -/
abbrev weMin : Nat := 2
/-- WE_MAX (rules R6, R7). -/
abbrev weMax : Nat := 15
/-- WM_MIN (rules R6, R7). -/
abbrev wmMin : Nat := 2
/-- WM_MAX (rules R6, R7). -/
abbrev wmMax : Nat := 112
/-- P_SHORT, the significant digits of a rendered value of a narrow format (rules R7, R138). -/
abbrev pShort : Nat := 17
/-- P_LONG, the significant digits of a rendered value of a wide format (rules R7, R138). -/
abbrev pLong : Nat := 30
/-- P_SPLIT, the largest `wm` that renders with P_SHORT (rules R7, R138). -/
abbrev pSplit : Nat := 53

/-- DESIGN CHOICE (log 4; safe): by how much TEXT_MAX exceeds 64. It has no body, so nothing can be proved of
it but that TEXT_MAX is one of the integers 64..65535 that rule R7 allows. -/
opaque textMaxExcess : Fin 65472

/-- TEXT_MAX, the largest ENCODE payload in bytes: any integer with 64 ≤ TEXT_MAX ≤ 65535 (rules R7, R125). -/
def textMax : Nat := textMaxExcess.val + 64

end Sys2Proof.Config
end

