-- ==== Sys2Proof/Machine/Params.lean ====
section
/-! DEFINITION. The format parameter calculator (rules R80 to R84), the special bit patterns (rule R89), the
classification (rule R90) and the digit count (rule R138), as functions of the widths. -/

namespace Sys2Proof.Machine

/-- `bias = 2^(we−1) − 1` (rule R80). -/
def bias (we : Nat) : Nat := 2 ^ (we - 1) - 1

/-- `emin = 1 − bias` (rule R81). -/
def emin (we : Nat) : Int := 1 - (bias we : Int)

/-- `emax = 2^we − 2 − bias` (rule R82). -/
def emax (we : Nat) : Int := 2 ^ we - 2 - (bias we : Int)

/-- `N = 1 + we + wm` (rule R83). -/
def totalBits (we wm : Nat) : Nat := 1 + we + wm

/-- `EONES = 2^we − 1`, the all-ones exponent field (rule R84). -/
def eOnes (we : Nat) : Nat := 2 ^ we - 1

/-- The integer `val(B)` of the bit string with the given fields (rules R9, R118). -/
def packFields (we wm : Nat) (s : Bool) (ef mf : Nat) : Nat :=
  s.toNat * 2 ^ (we + wm) + ef * 2 ^ wm + mf

/-- `PAT_ZERO(s)` (rule R89). -/
def patZero (we wm : Nat) (s : Bool) : Nat := packFields we wm s 0 0

/-- `PAT_INF(s)` (rule R89). -/
def patInf (we wm : Nat) (s : Bool) : Nat := packFields we wm s (eOnes we) 0

/-- `PAT_NAN(s)` (rule R89): the mantissa is all ones. -/
def patNan (we wm : Nat) (s : Bool) : Nat := packFields we wm s (eOnes we) (2 ^ wm - 1)

/-- `classify(ef, mf)` (rule R90): a function of the two fields only, never of the sign. -/
def classify (we ef mf : Nat) : FpClass :=
  if ef = eOnes we then (if mf = 0 then .infinity else .nan)
  else if ef = 0 then (if mf = 0 then .zero else .denormal)
  else .normal

/-- P, the significant digits of a rendered value: 17 when `wm ≤ 53`, else 30 (rule R138, conflict C8). -/
def digitCount (wm : Nat) : Nat := if wm ≤ Config.pSplit then Config.pShort else Config.pLong

/-- The widths CONFIG accepts (rules R6, R86). -/
def legalFormat (we wm : Nat) : Bool :=
  decide (Config.weMin ≤ we) && decide (we ≤ Config.weMax) && decide (Config.wmMin ≤ wm) && decide (wm ≤ Config.wmMax)

end Sys2Proof.Machine
end

