-- ==== Sys2Proof/Machine/Operands.lean ====
section
/-! DEFINITION. Operand forms: the format registers as numbers, the fields and single bits of BITS (rules R9, R23,
R24), the masks the bit operations use, the LDBITS payload as a number (rule R43) and numerals as text (rules R11,
R44). -/

namespace Sys2Proof.Machine

/-- `we`, read from EXPW (rule R20). -/
def State.we (s : State) : Nat := s.expw.toNat

/-- `wm`, read from MANW (rule R20). -/
def State.wm (s : State) : Nat := s.manw.toNat

/-- `N` of the configured format (rule R83). -/
def State.n (s : State) : Nat := totalBits s.we s.wm

/-- `B[i] = BITS⟨N−1−i⟩`: bit `i` of the string, index 0 the sign (rules R9, R23). -/
def bitAt (n : Nat) (b : Bits) (i : Nat) : Bool := b.getLsbD (n - 1 - i)

/-- The sign bit `s = BITS⟨N−1⟩` (rules R24, R131). -/
def signOf (we wm : Nat) (b : Bits) : Bool := bitAt (totalBits we wm) b 0

/-- The exponent field `ef = BITS⟨N−2 : wm⟩` (rules R24, R131). -/
def expField (we wm : Nat) (b : Bits) : Nat := b.toNat / 2 ^ wm % 2 ^ we

/-- The mantissa field `mf = BITS⟨wm−1 : 0⟩` (rules R24, R131). -/
def manField (wm : Nat) (b : Bits) : Nat := b.toNat % 2 ^ wm

/-- The low `k` bits all one, `2^k − 1` (rules R155, R157, R158). -/
def lowOnes (k : Nat) : Bits := BitVec.ofNat 128 (2 ^ k - 1)

/-- The one bit of index `i`, of weight `2^(N−1−i)` (rule R153). -/
def indexMask (n i : Nat) : Bits := BitVec.ofNat 128 (2 ^ (n - 1 - i))

/-- A byte string as an unsigned number, most significant byte first (rule R43). -/
def bigEndian (payload : Text) : Nat := payload.foldl (fun acc b => acc * 256 + b.toNat) 0

/-- The big-endian bytes of a number, `k` of them: byte 0 carries the most significant bits (rules R43, R45). -/
def bigEndianBytes : Nat → Nat → Text
  | 0, _ => []
  | k + 1, v => bigEndianBytes k (v / 256) ++ [BitVec.ofNat 8 v]

/-- A bit string as the 16 payload bytes of LDBITS or of a serialised response field BITS (rule R43). -/
def bitsBytes (b : Bits) : Text := bigEndianBytes 16 b.toNat

/-- TLEN, the length of a TEXT field (rule R73). -/
def textLen (t : Text) : BitVec 8 := BitVec.ofNat 8 t.length

/-- The ASCII bytes of a string, first character first (rules R14, R44). -/
def ascii (s : String) : Text := s.toList.map fun c => BitVec.ofNat 8 c.toNat

/-- The character of one digit: 0 to 9, then A to F, upper case (rules R142, R165, R167). -/
def digitChar (d : Nat) : Byte := BitVec.ofNat 8 (if d < 10 then 0x30 + d else 0x37 + d)

/-- The `k`-digit numeral of `v` in base `b`, most significant digit first, zero-padded on the left; `bin(v, k)` of
rule R11 is base 2. -/
def numeral (b : Nat) : Nat → Nat → Text
  | 0, _ => []
  | k + 1, v => numeral b k (v / b) ++ [digitChar (v % b)]

/-- The decimal numeral of `v` without leading zeros (rule R142). -/
def decimalNumeral (v : Nat) : Text := numeral 10 (Nat.log 10 v + 1) v

end Sys2Proof.Machine
end

