-- ==== Sys2Proof/Machine/BitOps.lean ====
section
/-! DEFINITION. The bit-string register operations LDBITS, RDBITS, TOGGLE, SETRANGE, SETALL and INVERT (rules R150 to
R161). -/

namespace Sys2Proof.Machine

/-- LDBITS (rule R151): exactly 16 bytes, most significant first, with every bit above N zero; BAD_LENGTH is checked
before BAD_VALUE (rule R187). -/
def execLdbits (payload : Text) (s : State) : Host.Outcome State Fault Refusal :=
  .next <| whenReady (commandWord (.ldbits payload)) s fun s =>
    if payload.length ≠ 16 then raiseFault .badLength (commandWord (.ldbits payload)) s
    else if 2 ^ s.n ≤ bigEndian payload then raiseFault .badValue (commandWord (.ldbits payload)) s
    else writeBits (BitVec.ofNat 128 (bigEndian payload)) s

/-- RDBITS (rule R152): answers BITS; writes nothing. -/
def execRdbits (s : State) : Host.Outcome State Fault Refusal :=
  .next <| whenReady (commandWord .rdbits) s fun s => respond (.ok (.bits s.bits)) s

/-- BITS with bit `i` inverted: `BITS xor 2^(N−1−i)` (rule R153). -/
def toggledBits (n i : Nat) (b : Bits) : Bits := b ^^^ indexMask n i

/-- BITS with its low `N − i` bits replaced by `v` (rule R155). -/
def rangeSetBits (n i : Nat) (v : Bool) (b : Bits) : Bits :=
  (b &&& ~~~ lowOnes (n - i)) ||| (if v then lowOnes (n - i) else 0)

/-- `V · (2^N − 1)` (rule R157). -/
def allSetBits (n : Nat) (v : Bool) : Bits := if v then lowOnes n else 0

/-- `(2^N − 1) − BITS`: each of the N bits complemented, the bits above them 0 (rule R158). -/
def invertedBits (n : Nat) (b : Bits) : Bits := ~~~ b &&& lowOnes n

/-- TOGGLE IDX (rules R153, R154): BAD_INDEX at IDX ≥ N. -/
def execToggle (idx : BitVec 8) (s : State) : Host.Outcome State Fault Refusal :=
  .next <| whenReady (commandWord (.toggle idx)) s fun s =>
    if s.n ≤ idx.toNat then raiseFault .badIndex (commandWord (.toggle idx)) s
    else writeBits (toggledBits s.n idx.toNat s.bits) s

/-- SETRANGE IDX, V (rules R155, R156): BAD_INDEX at IDX ≥ N, the empty range among them. -/
def execSetrange (idx : BitVec 8) (v : Bool) (s : State) : Host.Outcome State Fault Refusal :=
  .next <| whenReady (commandWord (.setrange idx v)) s fun s =>
    if s.n ≤ idx.toNat then raiseFault .badIndex (commandWord (.setrange idx v)) s
    else writeBits (rangeSetBits s.n idx.toNat v s.bits) s

/-- SETALL V (rule R157). -/
def execSetall (v : Bool) (s : State) : Host.Outcome State Fault Refusal :=
  .next <| whenReady (commandWord (.setall v)) s fun s => writeBits (allSetBits s.n v) s

/-- INVERT (rule R158). -/
def execInvert (s : State) : Host.Outcome State Fault Refusal :=
  .next <| whenReady (commandWord .invert) s fun s => writeBits (invertedBits s.n s.bits) s

end Sys2Proof.Machine
end

