-- ==== Sys2Proof/Machine/Rational.lean ====
section
/-! DEFINITION. Exact arithmetic on non-negative rationals (rules R8, R12, R13): a numerator and a denominator, both
natural numbers of any size, so that no operation rounds (log 6). -/

namespace Sys2Proof.Machine

/-- A non-negative rational `num / den`; every one the model forms has `den > 0`. -/
structure Frac where
  num : Nat
  den : Nat
deriving DecidableEq, Repr

/-- `x · b^k` for an integer `k` of either sign (rules R8, R12). -/
def scaleBy (b : Nat) (k : Int) (x : Frac) : Frac :=
  match k with
  | .ofNat n => ⟨x.num * b ^ n, x.den⟩
  | .negSucc n => ⟨x.num, x.den * b ^ (n + 1)⟩

/-- `floor(log_b(x))` for `x > 0` and `b ≥ 2`: the unique integer `e` with `b^e ≤ x < b^(e+1)` (rule R12). The digit
counts of numerator and denominator leave two candidates; the comparison with `b^k` is exact. -/
def floorLog (b : Nat) (x : Frac) : Int :=
  let k : Int := (Nat.log b x.num : Int) - (Nat.log b x.den : Int)
  if (scaleBy b (-k) x).den ≤ (scaleBy b (-k) x).num then k else k - 1

/-- `rnd(x) = floor(x + 1/2)`: nearest integer, ties up (rule R13). -/
def rnd (x : Frac) : Nat := (2 * x.num + x.den) / (2 * x.den)

/-- `x − 1` for `x ≥ 1` (rule R115). -/
def subOne (x : Frac) : Frac := ⟨x.num - x.den, x.den⟩

/-- `m · b^k`, as `sig · 2^exp` (rule R92) or a decimal coefficient and exponent (rule R106). -/
def scaledInt (b m : Nat) (k : Int) : Frac := scaleBy b k ⟨m, 1⟩

end Sys2Proof.Machine
end

