-- ==== Sys2Proof/Machine/Decoder.lean ====
section
/-! DEFINITION. The decoder: Render and Layout (rules R139 to R142) and the DECODE command (rule R130). -/

namespace Sys2Proof.Machine

/-- The rounded digits before the carry: `rnd(v · 10^(P − 1 − x10))` (rule R139). -/
def roundedDigits (v : Frac) (p : Nat) (x10 : Int) : Nat := rnd (scaleBy 10 ((p : Int) - 1 - x10) v)

/-- `Render(v, P)` for `v > 0`: the `P` significant digits as one integer and the decimal exponent of the first,
with the decimal carry (rules R139, R140). -/
def render (v : Frac) (p : Nat) : Nat × Int :=
  let x10 := floorLog 10 v
  let coef := roundedDigits v p x10
  if coef = 10 ^ p then (10 ^ (p - 1), x10 + 1) else (coef, x10)

/-- The leading `-` of a negative value; there is never a `+` (rules R141, R149). -/
def signText (s : Bool) : Text := if s then ascii "-" else []

/-- `Layout(s, coef, x10, P)` (rules R141, R142): positional for `−6 ≤ x10 ≤ P − 1`, else scientific. Trailing zeros
are kept. -/
def layout (s : Bool) (coef : Nat) (x10 : Int) (p : Nat) : Text :=
  let digits := numeral 10 p coef
  if 0 ≤ x10 ∧ x10 ≤ (p : Int) - 2 then
    signText s ++ digits.take (x10.toNat + 1) ++ ascii "." ++ digits.drop (x10.toNat + 1)
  else if x10 = (p : Int) - 1 then signText s ++ digits
  else if -6 ≤ x10 ∧ x10 ≤ -1 then
    signText s ++ ascii "0." ++ List.replicate (-x10 - 1).toNat (digitChar 0) ++ digits
  else
    signText s ++ digits.take 1 ++ ascii "." ++ digits.drop 1 ++ ascii "e"
      ++ (if 0 ≤ x10 then ascii "+" else ascii "-") ++ decimalNumeral x10.natAbs

/-- The data of a value that is not rendered: its numeric fields are 0 (rules R130, R132 to R134). -/
def unrendered (cls : FpClass) (s : Bool) (p : Nat) (text : Text) : Decoded where
  cls := cls
  sign := s
  sig := 0
  exp2 := 0
  p := BitVec.ofNat 5 p
  coef := 0
  exp10 := 0
  text := text

/-- The data of the finite value `(−1)^s · sig · 2^exp2` (rules R130, R137). -/
def rendered (cls : FpClass) (s : Bool) (sig : Nat) (exp2 : Int) (p : Nat) : Decoded where
  cls := cls
  sign := s
  sig := BitVec.ofNat 113 sig
  exp2 := BitVec.ofInt 16 exp2
  p := BitVec.ofNat 5 p
  coef := BitVec.ofNat 100 (render (scaledInt 2 sig exp2) p).1
  exp10 := BitVec.ofInt 16 (render (scaledInt 2 sig exp2) p).2
  text := layout s (render (scaledInt 2 sig exp2) p).1 (render (scaledInt 2 sig exp2) p).2 p

/-- The significand integer, with the implicit leading bit of a Normal (rules R92, R136). -/
def significand (wm ef mf : Nat) : Nat := if ef = 0 then mf else 2 ^ wm + mf

/-- The exponent of the significand's last bit, `exp − wm` (rules R92, R135, R137). -/
def exponent2 (we wm ef : Nat) : Int := (if ef = 0 then emin we else (ef : Int) - bias we) - wm

/-- DECODE's data for a bit string (rule R130). -/
def decodeBits (we wm : Nat) (b : Bits) : Decoded :=
  let s := signOf we wm b
  let ef := expField we wm b
  let mf := manField wm b
  let p := digitCount wm
  match classify we ef mf with
  | .infinity => unrendered .infinity s p (signText s ++ ascii "Infinity")
  | .nan => unrendered .nan s p (ascii "NaN")
  | .zero => unrendered .zero s p (ascii "0")
  | .denormal => rendered .denormal s (significand wm ef mf) (exponent2 we wm ef) p
  | .normal => rendered .normal s (significand wm ef mf) (exponent2 we wm ef) p

/-- DECODE (rules R130, R147, R148): answers the class and value of BITS; writes nothing. -/
def execDecode (s : State) : Host.Outcome State Fault Refusal :=
  .next <| whenReady (commandWord .decode) s fun s =>
    respond (.ok (.decoded (decodeBits s.we s.wm s.bits))) s

end Sys2Proof.Machine
end

