-- ==== Sys2Proof/Machine/Lexer.lean ====
section
/-! DEFINITION. Reading the ENCODE text (rules R102 to R107): an optional sign, then a token or a decimal number. -/

namespace Sys2Proof.Machine

/-- What a text reads as (rule R100). A number is kept exactly, as a coefficient and a power of ten: its value is
`coef · 10^exp10` (rule R106). -/
inductive Token where
  | error
  | inf (s : Bool)
  | nan (s : Bool)
  | number (s : Bool) (coef : Nat) (exp10 : Int)
deriving DecidableEq, Repr

/-- A decimal digit `'0'` to `'9'` (rule R105). -/
def isDigit (b : Byte) : Bool := decide (0x30 ≤ b.toNat) && decide (b.toNat ≤ 0x39)

/-- Fold the ASCII letters A to Z onto a to z, and no other byte (rule R14). -/
def foldCase (b : Byte) : Byte :=
  if 0x41 ≤ b.toNat ∧ b.toNat ≤ 0x5A then b + 0x20 else b

/-- `int` of a digit string in base ten, leading zeros allowed (rule R106). -/
def digitsValue (ds : Text) : Nat := ds.foldl (fun acc b => acc * 10 + (b.toNat - 0x30)) 0

/-- Strip at most one sign character; the sign is true for `'-'` (rule R102). -/
def splitSign : Text → Bool × Text
  | [] => (false, [])
  | b :: rest => if b = 0x2D then (true, rest) else if b = 0x2B then (false, rest) else (false, b :: rest)

/-- The `exp` part of the grammar after the number's digits: empty, or `e` or `E`, an optional sign and at least one
digit, with nothing after them (rule R105). -/
def readExp : Text → Option Int
  | [] => some 0
  | b :: rest =>
    if b = 0x65 ∨ b = 0x45 then
      let digits := (splitSign rest).2
      if digits ≠ [] ∧ digits.all isDigit then
        some (if (splitSign rest).1 then -(digitsValue digits : Int) else (digitsValue digits : Int))
      else none
    else none

/-- What follows the digits before the point: with a point, the fraction digits after it (rule R105). -/
def splitFraction : Text → Text × Text
  | [] => ([], [])
  | b :: rest => if b = 0x2E then (rest.takeWhile isDigit, rest.dropWhile isDigit) else ([], b :: rest)

/-- Read an unsigned decimal number (rule R105) with value `int(I ‖ F) · 10^(X − length(F))` (rule R106). At least
one digit must stand before or after the point. -/
def readNumber (s : Bool) (body : Text) : Token :=
  let intDigits := body.takeWhile isDigit
  let fraction := splitFraction (body.dropWhile isDigit)
  if intDigits = [] ∧ fraction.1 = [] then .error
  else
    match readExp fraction.2 with
    | none => .error
    | some x => .number s (digitsValue (intDigits ++ fraction.1)) (x - (fraction.1.length : Int))

/-- `Lex` (rules R102 to R107): sign, then the infinity token, the NaN token or a number; all else is an error. -/
def lex (text : Text) : Token :=
  let s := (splitSign text).1
  let body := (splitSign text).2
  let folded := body.map foldCase
  if folded = ascii "inf" ∨ folded = ascii "infinity" then .inf s
  else if folded = ascii "nan" then .nan s
  else readNumber s body

end Sys2Proof.Machine
end

