-- ==== Sys2Proof/Machine/Encoder.lean ====
section
/-! DEFINITION. The encoder: EncodeValue (rules R109 to R119) and the ENCODE command (rule R100). -/

namespace Sys2Proof.Machine

/-- The rounding carry and the assembly (rules R117, R118), after the normal and the denormal path alike (conflict
C7): a raw mantissa of `2^wm` becomes 0 and the exponent field grows by 1, to Infinity at the all-ones value. -/
def assembleFields (we wm : Nat) (s : Bool) (ef mRaw : Nat) : Nat :=
  if mRaw = 2 ^ wm then
    if ef + 1 = eOnes we then patInf we wm s else packFields we wm s (ef + 1) 0
  else packFields we wm s ef mRaw

/-- `Mraw` of the denormal path: `rnd(d · 2^(wm − emin))` (rule R112, conflict C1). -/
def denormalMantissa (we wm : Nat) (d : Frac) : Nat := rnd (scaleBy 2 ((wm : Int) - emin we) d)

/-- `Mraw` of the normal path at exponent `e`: `rnd((d / 2^e − 1) · 2^wm)` (rule R115). -/
def normalMantissa (wm : Nat) (e : Int) (d : Frac) : Nat := rnd (scaleBy 2 wm (subOne (scaleBy 2 (-e) d)))

/-- `EncodeValue(s, d)` as `val(B)` (rule R119), for an exact `d ≥ 0`. -/
def encodeValue (we wm : Nat) (s : Bool) (d : Frac) : Nat :=
  if d.num = 0 then patZero we wm s
  else
    let e := floorLog 2 d
    if e < emin we then
      if denormalMantissa we wm d = 0 then patZero we wm s
      else assembleFields we wm s 0 (denormalMantissa we wm d)
    else if emax we < e then patInf we wm s
    else assembleFields we wm s (e + bias we).toNat (normalMantissa wm e d)

/-- `EncodeValue` of `coef · 10^x`, with the bounds of rule R210 (log 5): a value of at least `10^4933` is Infinity and
one below `10^−4967` is zero in every format, so that `10^x` is formed only between them. -/
def encodeDecimal (we wm : Nat) (s : Bool) (coef : Nat) (x : Int) : Nat :=
  let digits : Int := (Nat.log 10 coef : Int) + 1
  if coef = 0 then patZero we wm s
  else if 4933 ≤ digits - 1 + x then patInf we wm s
  else if digits + x ≤ -4967 then patZero we wm s
  else encodeValue we wm s (scaledInt 10 coef x)

/-- The bit string a token encodes to; none for a text that is no literal (rules R100, R103, R104, R108). -/
def encodeToken (we wm : Nat) : Token → Option Nat
  | .error => none
  | .inf s => some (patInf we wm s)
  | .nan s => some (patNan we wm s)
  | .number s coef x => some (encodeDecimal we wm s coef x)

/-- ENCODE text (rule R100): BAD_LENGTH above TEXT_MAX (rule R125), INPUT_ERROR with no state change on a text that is
no literal (rule R108), else the new bit string. -/
def execEncode (text : Text) (s : State) : Host.Outcome State Fault Refusal :=
  .next <| whenReady (commandWord (.encode text)) s fun s =>
    if Config.textMax < text.length then raiseFault .badLength (commandWord (.encode text)) s
    else
      match encodeToken s.we s.wm (lex text) with
      | none => respond .inputError s
      | some v => writeBits (BitVec.ofNat 128 v) s

end Sys2Proof.Machine
end

