-- ==== Sys2Proof/Machine/FormatOps.lean ====
section
/-! DEFINITION. CONFIG and RDFMT (rules R86 to R88). -/

namespace Sys2Proof.Machine

/-- BIAS as a response field (rules R72, R80). -/
def biasField (we : Nat) : BitVec 14 := BitVec.ofNat 14 (bias we)

/-- EMIN as a response field, two's complement (rules R72, R81). -/
def eminField (we : Nat) : BitVec 15 := BitVec.ofInt 15 (emin we)

/-- EMAX as a response field (rules R72, R82). -/
def emaxField (we : Nat) : BitVec 14 := BitVec.ofInt 14 (emax we)

/-- N as a response field (rules R72, R83). -/
def nField (we wm : Nat) : BitVec 8 := BitVec.ofNat 8 (totalBits we wm)

/-- CONFIG WE, WM (rules R86, R87): the bounds are checked on the full 8-bit fields before anything is written
(rule R63); then the widths, CFGV and a zero bit string. It is legal in the unconfigured state. -/
def execConfig (we wm : BitVec 8) (s : State) : Host.Outcome State Fault Refusal :=
  .next <| whenLive s fun s =>
    if legalFormat we.toNat wm.toNat then
      respond (.ok (.configured (biasField we.toNat) (eminField we.toNat) (emaxField we.toNat)
          (nField we.toNat wm.toNat) 0))
        (setFormat (we.setWidth 4) (wm.setWidth 7) s)
    else raiseFault .badFormat (commandWord (.config we wm)) s

/-- RDFMT (rule R88): the widths and their derived constants; writes nothing. -/
def execRdfmt (s : State) : Host.Outcome State Fault Refusal :=
  .next <| whenReady (commandWord .rdfmt) s fun s =>
    respond (.ok (.format s.expw s.manw (biasField s.we) (eminField s.we) (emaxField s.we) (nField s.we s.wm))) s

end Sys2Proof.Machine
end

