-- ==== Sys2Proof/Machine/Presentation.lean ====
section
/-! DEFINITION. The presentation helpers GROUPED, HEX and CHARS (rules R165 to R175). -/

namespace Sys2Proof.Machine

/-- The bits of the string from index `i` on, `count` of them, as `'0'` and `'1'` (rule R165). -/
def bitChars (n : Nat) (b : Bits) (i count : Nat) : Text :=
  (List.range count).map fun j => digitChar (bitAt n b (i + j)).toNat

/-- The GROUPED text: sign, space, exponent field, space, mantissa field (rule R165). -/
def groupedText (we wm : Nat) (b : Bits) : Text :=
  bitChars (totalBits we wm) b 0 1 ++ ascii " " ++ bitChars (totalBits we wm) b 1 we ++ ascii " "
    ++ bitChars (totalBits we wm) b (1 + we) wm

/-- The HEX text: `ceil(N/4)` upper-case digits of `val(B)`, zero-padded on the left, no prefix (rules R167, R168). -/
def hexText (n : Nat) (b : Bits) : Text := numeral 16 ((n + 3) / 4) b.toNat

/-- One value of CHARS: the positive value `sig · 2^exp2`, rendered as DECODE renders (rules R170 to R172). -/
def characteristic (sig : Nat) (exp2 : Int) (p : Nat) : Characteristic where
  sig := BitVec.ofNat 113 sig
  exp2 := BitVec.ofInt 16 exp2
  coef := BitVec.ofNat 100 (render (scaledInt 2 sig exp2) p).1
  exp10 := BitVec.ofInt 16 (render (scaledInt 2 sig exp2) p).2
  text := layout false (render (scaledInt 2 sig exp2) p).1 (render (scaledInt 2 sig exp2) p).2 p

/-- EPS: `2^−wm` (rule R170). -/
def epsilonOf (wm : Nat) : Characteristic := characteristic 1 (-(wm : Int)) (digitCount wm)

/-- MAXN: `(2^(wm+1) − 1) · 2^(emax − wm)` (rules R170, R171). -/
def maxNormalOf (we wm : Nat) : Characteristic := characteristic (2 ^ (wm + 1) - 1) (emax we - wm) (digitCount wm)

/-- MINN: `2^emin` (rule R170). -/
def minNormalOf (we wm : Nat) : Characteristic := characteristic 1 (emin we) (digitCount wm)

/-- MIND: `2^(emin − wm)` (rule R170). -/
def minDenormalOf (we wm : Nat) : Characteristic := characteristic 1 (emin we - wm) (digitCount wm)

/-- GROUPED (rule R165); writes nothing. -/
def execGrouped (s : State) : Host.Outcome State Fault Refusal :=
  .next <| whenReady (commandWord .grouped) s fun s => respond (.ok (.text (groupedText s.we s.wm s.bits))) s

/-- HEX (rule R167); writes nothing. -/
def execHex (s : State) : Host.Outcome State Fault Refusal :=
  .next <| whenReady (commandWord .hex) s fun s => respond (.ok (.text (hexText s.n s.bits))) s

/-- CHARS (rules R170 to R174): depends on the widths only; writes nothing. -/
def execChars (s : State) : Host.Outcome State Fault Refusal :=
  .next <| whenReady (commandWord .chars) s fun s =>
    respond (.ok (.chars (biasField s.we) (BitVec.ofNat 5 (digitCount s.wm)) (epsilonOf s.wm) (maxNormalOf s.we s.wm)
      (minNormalOf s.we s.wm) (minDenormalOf s.we s.wm))) s

end Sys2Proof.Machine
end

