-- ==== Sys2Proof/Machine/Status.lean ====
section
/-! DEFINITION. RDSTAT (rule R188), the one command a halted unit executes (rule R185). -/

namespace Sys2Proof.Machine

/-- RDSTAT (rule R188): the four registers as they stand, configured or not, halted or not; writes nothing. -/
def execRdstat (s : State) : Host.Outcome State Fault Refusal :=
  .next (respond (.ok (.status s.cfgv s.fault s.fcause s.fcmd)) s)

end Sys2Proof.Machine
end

