-- ==== Sys2Proof/Machine/Dispatch.lean ====
section
/-! DEFINITION. One arm per command (rule R64). -/

namespace Sys2Proof.Machine

def exec (i : Instr) (s : State) : Host.Outcome State Fault Refusal :=
  match i with
  | .config we wm => Sys2Proof.Machine.execConfig we wm s
  | .rdfmt => Sys2Proof.Machine.execRdfmt s
  | .encode text => Sys2Proof.Machine.execEncode text s
  | .decode => Sys2Proof.Machine.execDecode s
  | .ldbits payload => Sys2Proof.Machine.execLdbits payload s
  | .rdbits => Sys2Proof.Machine.execRdbits s
  | .toggle idx => Sys2Proof.Machine.execToggle idx s
  | .setrange idx v => Sys2Proof.Machine.execSetrange idx v s
  | .setall v => Sys2Proof.Machine.execSetall v s
  | .invert => Sys2Proof.Machine.execInvert s
  | .grouped => Sys2Proof.Machine.execGrouped s
  | .hex => Sys2Proof.Machine.execHex s
  | .chars => Sys2Proof.Machine.execChars s
  | .rdstat => Sys2Proof.Machine.execRdstat s

end Sys2Proof.Machine
end

