-- ==== Sys2Proof/Machine/Step.lean ====
section
/-! DEFINITION. One step of the FCU: one whole host move (rules R18, R49, R187). -/

namespace Sys2Proof.Machine

/-- One step takes the host's oldest waiting move. A command is decoded (rule R65) and executed, or rejected (rules
R66, R187); a reset resets (rule R200); with no move waiting the unit is idle and holds its state (rules R191, R196;
log 2). -/
def step (s : State) : Host.Outcome State Fault Refusal :=
  match nextMove s with
  | none => .next s
  | some (.reset, s') => .next (hardwareReset s')
  | some (.command w payload, s') =>
    match decode w payload with
    | .ok i => exec i s'
    | .error _ => .next (rejectCommand w s')

/-- The command whose bits are `w`, numbered as the opcode table numbers them, placed as the host's next move
(log 12). -/
def State.withFetchWord (s : State) (nbits w : Nat) : State :=
  { s with pending := .command (tableWord nbits w) (tablePayload nbits w) :: s.pending }

end Sys2Proof.Machine
end

