-- ==== Sys2Proof/Machine/Assembler.lean ====
section
/-! DEFINITION. The assembler syntax (rule R69): one command a line. It is how a host writes a command down and has no
part in what the unit does. What rule R69 does not say of spacing and letter case is log 13. -/

namespace Sys2Proof.Machine

/-- Drop leading spaces (log 13). -/
def skipSpaces (t : Text) : Text := t.dropWhile fun b => b = 0x20

/-- Nothing is left of the line but a comment, which `;` starts (rule R69). -/
def lineDone (t : Text) : Bool :=
  match skipSpaces t with
  | [] => true
  | b :: _ => b = 0x3B

/-- A decimal integer and what follows it (rule R69). -/
def readDecimal (t : Text) : Option (Nat × Text) :=
  if t.takeWhile isDigit = [] then none else some (digitsValue (t.takeWhile isDigit), t.dropWhile isDigit)

/-- One decimal operand of at most `top`, and the end of the line. -/
def readOne (top : Nat) (t : Text) : Option Nat :=
  match readDecimal (skipSpaces t) with
  | some (v, rest) => if v ≤ top ∧ lineDone rest then some v else none
  | none => none

/-- Two decimal operands, of at most 255 and `top`, separated by a comma, and the end of the line. -/
def readTwo (top : Nat) (t : Text) : Option (Nat × Nat) :=
  match readDecimal (skipSpaces t) with
  | some (v, rest) =>
    match skipSpaces rest with
    | b :: more => if b = 0x2C ∧ v ≤ 255 then (readOne top more).map fun w => (v, w) else none
    | [] => none
  | none => none

/-- The value of a hexadecimal digit (log 13: of either case). -/
def hexValue (b : Byte) : Option Nat :=
  if isDigit b then some (b.toNat - 0x30)
  else if 0x41 ≤ b.toNat ∧ b.toNat ≤ 0x46 then some (b.toNat - 0x37)
  else if 0x61 ≤ b.toNat ∧ b.toNat ≤ 0x66 then some (b.toNat - 0x57)
  else none

/-- Bytes written as pairs of hexadecimal digits (rule R69). -/
def hexPairs : Text → Option Text
  | [] => some []
  | [_] => none
  | a :: b :: rest =>
    match hexValue a, hexValue b, hexPairs rest with
    | some x, some y, some bytes => some (BitVec.ofNat 8 (x * 16 + y) :: bytes)
    | _, _, _ => none

/-- The number of a row of hexadecimal digits. -/
def hexNumber (t : Text) : Nat := t.foldl (fun acc b => acc * 16 + (hexValue b).getD 0) 0

/-- The ENCODE operand (rule R69): the bytes between double quotes, with no escapes, or `hex:` and the bytes in
hexadecimal. -/
def readText (t : Text) : Option Text :=
  match skipSpaces t with
  | [] => none
  | b :: rest =>
    if b = 0x22 then
      match rest.dropWhile fun c => c ≠ 0x22 with
      | [] => none
      | _ :: after => if lineDone after then some (rest.takeWhile fun c => c ≠ 0x22) else none
    else if (b :: rest).take 4 = ascii "hex:" then
      let digits := (b :: rest).drop 4
      let hexed := digits.takeWhile fun c => (hexValue c).isSome
      if lineDone (digits.dropWhile fun c => (hexValue c).isSome) then hexPairs hexed else none
    else none

/-- The LDBITS operand (rule R69): `0x` and at most 32 hexadecimal digits, zero-extended to 128 bits, as 16 bytes. -/
def readBitsValue (t : Text) : Option Text :=
  let u := skipSpaces t
  let hexed := (u.drop 2).takeWhile fun c => (hexValue c).isSome
  if u.take 2 = ascii "0x" ∧ hexed ≠ [] ∧ hexed.length ≤ 32 ∧ lineDone ((u.drop 2).dropWhile fun c => (hexValue c).isSome)
  then some (bigEndianBytes 16 (hexNumber hexed)) else none

/-- The command a line spells (rule R69); none when it spells no command. There are no pseudo-commands. -/
def assemble (line : Text) : Option Instr :=
  let u := skipSpaces line
  let name := u.takeWhile fun b => 0x41 ≤ b.toNat ∧ b.toNat ≤ 0x5A
  let rest := u.dropWhile fun b => 0x41 ≤ b.toNat ∧ b.toNat ≤ 0x5A
  let plain (i : Instr) : Option Instr := if lineDone rest then some i else none
  if rest.head?.any (fun b => b ≠ 0x20 ∧ b ≠ 0x3B) then none
  else if name = ascii "CONFIG" then
    (readTwo 255 rest).map fun v => .config (BitVec.ofNat 8 v.1) (BitVec.ofNat 8 v.2)
  else if name = ascii "RDFMT" then plain .rdfmt
  else if name = ascii "ENCODE" then ((readText rest).filter lenFits).map .encode
  else if name = ascii "DECODE" then plain .decode
  else if name = ascii "LDBITS" then (readBitsValue rest).map .ldbits
  else if name = ascii "RDBITS" then plain .rdbits
  else if name = ascii "TOGGLE" then (readOne 255 rest).map fun v => .toggle (BitVec.ofNat 8 v)
  else if name = ascii "SETRANGE" then
    (readTwo 1 rest).map fun v => .setrange (BitVec.ofNat 8 v.1) (decide (v.2 = 1))
  else if name = ascii "SETALL" then (readOne 1 rest).map fun v => .setall (decide (v = 1))
  else if name = ascii "INVERT" then plain .invert
  else if name = ascii "GROUPED" then plain .grouped
  else if name = ascii "HEX" then plain .hex
  else if name = ascii "CHARS" then plain .chars
  else if name = ascii "RDSTAT" then plain .rdstat
  else none

end Sys2Proof.Machine
end

