-- ==== Sys2Proof/Safety.lean ====
section
/-! DEFINITION. The terms claims are stated in: the safe states (rule R198), the state invariants (rule R36), the rows of
the opcode table, the number grammar (rule R105), the letter cases (rule R14) and the text forms (rules R141, R142),
and the encoder's and the renderer's rules written over ℚ
(rules R12, R13, R119, R139), which the machine's integer arithmetic is to meet. -/

namespace Sys2Proof.Machine

/-- The bounds of the widths (rule R6). -/
abbrev LegalWidths (we wm : Nat) : Prop := 2 ≤ we ∧ we ≤ 15 ∧ 2 ≤ wm ∧ wm ≤ 112

/-- "A model's safety predicate is FAULT = 0" (rule R198). -/
abbrev State.Safe (s : State) : Prop := s.fault = false

/-- Configured and not halted: every command gets past the common checks (rule R187). -/
abbrev State.Ready (s : State) : Prop := s.fault = false ∧ s.cfgv = true

/-- The invariants (a) to (d) of rule R36. -/
abbrev State.Inv (s : State) : Prop :=
  (s.cfgv = true → LegalWidths s.we s.wm)
    ∧ (s.cfgv = true → s.bits.toNat < 2 ^ s.n)
    ∧ (s.fault = false → s.fcause = 0 ∧ s.fcmd = 0)
    ∧ (s.fault = true → 1 ≤ s.fcause.toNat ∧ s.fcause.toNat ≤ 6)

/-- A ready state that meets (a) and (b) of rule R36. -/
abbrev State.Working (s : State) : Prop :=
  s.fault = false ∧ s.cfgv = true ∧ LegalWidths s.we s.wm ∧ s.bits.toNat < 2 ^ s.n

/-- CFGV, EXPW, MANW and BITS are the same in both states. -/
abbrev State.SameCodec (s t : State) : Prop :=
  t.cfgv = s.cfgv ∧ t.expw = s.expw ∧ t.manw = s.manw ∧ t.bits = s.bits

/-- FAULT, FCAUSE and FCMD are the same in both states. -/
abbrev State.SameFaults (s t : State) : Prop :=
  t.fault = s.fault ∧ t.fcause = s.fcause ∧ t.fcmd = s.fcmd

/-- The state after a command that writes nothing and answers `r` (rule R47). -/
abbrev State.answered (s : State) (r : Response) : State := { s with responses := s.responses ++ [r] }

/-- The state after a command with word `w` that raised the fault of cause code `code` (rule R183). -/
abbrev State.faulted (s : State) (code : BitVec 3) (w : Word) : State :=
  { s with fault := true, fcause := code, fcmd := w, responses := s.responses ++ [.fault] }

/-- The state after a command that wrote the bit string `v` and answered it (rule R150). -/
abbrev State.wrote (s : State) (v : Bits) : State :=
  { s with bits := v, responses := s.responses ++ [.ok (.bits v)] }

/-- `match` and `mask` of each row of the opcode table (rule R64). -/
def tableRow : Opcode → Word × Word
  | .config => (0x01000000, 0xFFFF0000)
  | .rdfmt => (0x02000000, 0xFFFFFFFF)
  | .encode => (0x03000000, 0xFFFF0000)
  | .decode => (0x04000000, 0xFFFFFFFF)
  | .ldbits => (0x05000000, 0xFFFF0000)
  | .rdbits => (0x06000000, 0xFFFFFFFF)
  | .toggle => (0x07000000, 0xFFFFFF00)
  | .setrange => (0x08000000, 0xFFFFFE00)
  | .setall => (0x09000000, 0xFFFFFEFF)
  | .invert => (0x0A000000, 0xFFFFFFFF)
  | .grouped => (0x0B000000, 0xFFFFFFFF)
  | .hex => (0x0C000000, 0xFFFFFFFF)
  | .chars => (0x0D000000, 0xFFFFFFFF)
  | .rdstat => (0x0E000000, 0xFFFFFFFF)

/-- The word selects the row (rule R64: `W & mask == match`) and the payload has the length its format asks for (rule
R65): LEN bytes for ENCODE and LDBITS, none for the others. -/
abbrev SelectsRow (w : Word) (payload : Text) (op : Opcode) : Prop :=
  w &&& (tableRow op).2 = (tableRow op).1
    ∧ payload.length = if op = .encode ∨ op = .ldbits then w.toNat % 2 ^ 16 else 0

/-! The number grammar. -/

/-- A row of digits (rule R105). -/
abbrev AllDigits (ds : Text) : Prop := ∀ b ∈ ds, 0x30 ≤ b.toNat ∧ b.toNat ≤ 0x39

/-- `int` of a row of digits in base ten (rule R106): the digits, last first, as Mathlib reads them. -/
def numeralValue (ds : Text) : Nat := Nat.ofDigits 10 (ds.reverse.map fun b => b.toNat - 0x30)

/-- `[exp]` of rule R105 with the value X of rule R106, 0 when absent. -/
inductive ExpText : Text → Int → Prop where
  | absent : ExpText [] 0
  | unsigned (e : Byte) (ds : Text) : e = 0x65 ∨ e = 0x45 → ds ≠ [] → AllDigits ds →
      ExpText (e :: ds) (numeralValue ds)
  | plus (e : Byte) (ds : Text) : e = 0x65 ∨ e = 0x45 → ds ≠ [] → AllDigits ds →
      ExpText (e :: 0x2B :: ds) (numeralValue ds)
  | minus (e : Byte) (ds : Text) : e = 0x65 ∨ e = 0x45 → ds ≠ [] → AllDigits ds →
      ExpText (e :: 0x2D :: ds) (-(numeralValue ds : Int))

/-- `number` of rule R105, with the coefficient `int(I ‖ F)` and the exponent `X − length(F)` of rule R106. -/
inductive NumberText : Text → Nat → Int → Prop where
  /-- `digits [exp]` -/
  | integer (i x : Text) (e : Int) : i ≠ [] → AllDigits i → ExpText x e →
      NumberText (i ++ x) (numeralValue i) e
  /-- `digits '.' [digits] [exp]` -/
  | pointed (i f x : Text) (e : Int) : i ≠ [] → AllDigits i → AllDigits f → ExpText x e →
      NumberText (i ++ 0x2E :: (f ++ x)) (numeralValue (i ++ f)) (e - (f.length : Int))
  /-- `'.' digits [exp]` -/
  | fraction (f x : Text) (e : Int) : f ≠ [] → AllDigits f → ExpText x e →
      NumberText (0x2E :: (f ++ x)) (numeralValue f) (e - (f.length : Int))

/-- A text is a sign and a body (rule R102): a leading `'-'`, a leading `'+'`, or neither. -/
abbrev SignedText (text : Text) (s : Bool) (body : Text) : Prop :=
  (s = true ∧ text = 0x2D :: body) ∨ (s = false ∧ text = 0x2B :: body)
    ∨ (s = false ∧ text = body ∧ body.head? ≠ some 0x2D ∧ body.head? ≠ some 0x2B)

/-- `body` is the lower-case word `word` in any letter case (rule R14): byte for byte the letter, or the letter less
0x20, which is its capital, and no other byte. -/
abbrev InAnyCase (body word : Text) : Prop := List.Forall₂ (fun b letter => b = letter ∨ b = letter - 0x20) body word

/-- The bytes of "inf" (rule R103). -/
abbrev wordInf : Text := [0x69, 0x6E, 0x66]
/-- The bytes of "infinity" (rule R103). -/
abbrev wordInfinity : Text := [0x69, 0x6E, 0x66, 0x69, 0x6E, 0x69, 0x74, 0x79]
/-- The bytes of "nan" (rule R104). -/
abbrev wordNan : Text := [0x6E, 0x61, 0x6E]

/-! The text forms. -/

/-- The decimal digits of a positive number, most significant first, as characters, without leading zeros (rule R142):
the digits as Mathlib gives them. -/
def decimalDigits (n : Nat) : Text := (Nat.digits 10 n).reverse.map fun d => BitVec.ofNat 8 (0x30 + d)

/-- `text` is `Layout(s, coef, x10, P)` for a coefficient of `P` digits: the three positional cases of rule R141 and the
scientific case of rule R142, byte for byte. -/
abbrev LayoutText (s : Bool) (coef : Nat) (x10 : Int) (p : Nat) (text : Text) : Prop :=
  let sg : Text := if s then [0x2D] else []
  let digits := decimalDigits coef
  (0 ≤ x10 → x10 ≤ (p : Int) - 2 →
      text = sg ++ digits.take (x10.toNat + 1) ++ [0x2E] ++ digits.drop (x10.toNat + 1))
    ∧ (x10 = (p : Int) - 1 → text = sg ++ digits)
    ∧ (-6 ≤ x10 → x10 ≤ -1 → text = sg ++ [0x30, 0x2E] ++ List.replicate (-x10 - 1).toNat 0x30 ++ digits)
    ∧ (x10 ≤ -7 ∨ (p : Int) ≤ x10 →
        text = sg ++ digits.take 1 ++ [0x2E] ++ digits.drop 1
          ++ [0x65, if 0 ≤ x10 then 0x2B else 0x2D] ++ decimalDigits x10.natAbs)

/-! The rules over ℚ. -/

/-- The exact value `sig · 2^e` (rule R92). -/
def dyadic (sig : Nat) (e : Int) : ℚ := (sig : ℚ) * 2 ^ e

/-- The exact value `coef · 10^x` (rule R106). -/
def decimal (coef : Nat) (x : Int) : ℚ := (coef : ℚ) * 10 ^ x

/-- `rnd` of rule R13. -/
def roundQ (x : ℚ) : ℤ := ⌊x + 1 / 2⌋

/-- The carry and assembly of rules R117 and R118. -/
def assembleQ (we wm : Nat) (s : Bool) (ef mRaw : ℤ) : ℤ :=
  let top : ℤ := if s then 2 ^ (we + wm) else 0
  if mRaw = 2 ^ wm then
    if ef + 1 = 2 ^ we - 1 then top + (2 ^ we - 1) * 2 ^ wm else top + (ef + 1) * 2 ^ wm
  else top + ef * 2 ^ wm + mRaw

/-- `EncodeValue(s, d)` of rule R119 over ℚ, as `val(B)`; `Int.log 2 d` is `floor(log2 d)`. -/
def encodeQ (we wm : Nat) (s : Bool) (d : ℚ) : ℤ :=
  let top : ℤ := if s then 2 ^ (we + wm) else 0
  let biasQ : ℤ := 2 ^ (we - 1) - 1
  let e := Int.log 2 d
  if d = 0 then top
  else if e < 1 - biasQ then
    if roundQ (d * 2 ^ ((wm : ℤ) - (1 - biasQ))) = 0 then top
    else assembleQ we wm s 0 (roundQ (d * 2 ^ ((wm : ℤ) - (1 - biasQ))))
  else if 2 ^ we - 2 - biasQ < e then top + (2 ^ we - 1) * 2 ^ wm
  else assembleQ we wm s (e + biasQ) (roundQ ((d / 2 ^ e - 1) * 2 ^ wm))

/-- `Render(v, P)` of rules R139 and R140 over ℚ; `Int.log 10 v` is `floor(log10 v)`. -/
def renderQ (v : ℚ) (p : Nat) : ℤ × ℤ :=
  let x10 := Int.log 10 v
  let coef := roundQ (v * 10 ^ ((p : ℤ) - 1 - x10))
  if coef = 10 ^ p then (10 ^ (p - 1), x10 + 1) else (coef, x10)

/-- The data fields `c` are those of the positive value `sig · 2^e`: SIG and EXP2 exact, COEF and EXP10 as rule R139
renders it, TEXT as rules R141 and R142 lay it out (rules R170, R172). -/
abbrev IsCharacteristic (sig : Nat) (e : Int) (p : Nat) (c : Characteristic) : Prop :=
  c.sig.toNat = sig ∧ c.exp2.toInt = e ∧ ((c.coef.toNat : ℤ), c.exp10.toInt) = renderQ (dyadic sig e) p
    ∧ LayoutText false c.coef.toNat c.exp10.toInt p c.text

/-- The class of a bit string, from its two fields (rule R90). -/
abbrev classOf (we wm : Nat) (b : Bits) : FpClass := classify we (expField we wm b) (manField wm b)

/-- The exact magnitude DECODE answers for a bit string, `SIG · 2^EXP2` (rules R92, R137). -/
def decodedMagnitude (we wm : Nat) (b : Bits) : ℚ :=
  dyadic (decodeBits we wm b).sig.toNat (decodeBits we wm b).exp2.toInt

/-- The non-negative value at magnitude `k`, the low `N − 1` bits of a pattern read as a number (rules R92, R93). At
`k = EONES · 2^wm`, the Infinity pattern, it is `2^(emax+1)`, the point that stands for Infinity in rule R121. -/
def gridValue (we wm k : Nat) : ℚ :=
  let biasQ : ℤ := 2 ^ (we - 1) - 1
  if k / 2 ^ wm = 0 then dyadic (k % 2 ^ wm) (1 - biasQ - wm)
  else dyadic (2 ^ wm + k % 2 ^ wm) ((k / 2 ^ wm : Nat) - biasQ - wm)

/-- `EncodeValue`'s magnitude, the low `N − 1` bits of the pattern of `coef · 10^x` (rule R128). -/
def encodedMagnitude (we wm coef : Nat) (x : Int) : Nat := encodeDecimal we wm false coef x % 2 ^ (we + wm)

/-- The value of an upper-case hexadecimal digit (rule R167). -/
def hexDigit (b : Byte) : Option Nat :=
  if 0x30 ≤ b.toNat ∧ b.toNat ≤ 0x39 then some (b.toNat - 0x30)
  else if 0x41 ≤ b.toNat ∧ b.toNat ≤ 0x46 then some (b.toNat - 0x37)
  else none

end Sys2Proof.Machine
end

