-- ==== Sys2Proof/Certificates/Slice0/Obligations.lean ====
section
/-! DEFINITION. The statements for the provers, in the terms of `Sys2Proof/Safety.lean`. -/

open Sys2Proof Sys2Proof.Machine

/-! ## Encoding -/

/-- Decoding the word and payload of a well-formed command gives the command back (rules R55 to R65). -/
def Obligations.DecodeInvertsEncode : Prop :=
  ∀ i : Instr, i.wellFormed = true → Sys2Proof.decode (commandWord i) (commandPayload i) = .ok i

/-- Every pair that decodes is the encoding of the command it decodes to, so no bit of a command is dropped (rules R55
to R65). -/
def Obligations.EncodeInvertsDecode : Prop :=
  ∀ (w : Word) (payload : Text) (i : Instr), Sys2Proof.decode w payload = .ok i →
    i.wellFormed = true ∧ Sys2Proof.encode i = (w, payload)

/-- A pair decodes exactly when it selects a row of the opcode table, and it selects at most one (rules R64, R65). -/
def Obligations.DecoderAcceptsExactlyTheTable : Prop :=
  ∀ (w : Word) (payload : Text),
    ((∃ i, Sys2Proof.decode w payload = .ok i) ↔ ∃ op, SelectsRow w payload op)
      ∧ (∀ i, Sys2Proof.decode w payload = .ok i → SelectsRow w payload i.opcode)
      ∧ ∀ op op', SelectsRow w payload op → SelectsRow w payload op' → op = op'

/-- A word and payload that select no row raise ILLEGAL_CMD in a unit that is not halted, opcodes 0x00 and 0x0F to 0xFF
among them (rule R66). -/
def Obligations.IllegalCommandFaults : Prop :=
  ∀ (s : State) (w : Word) (payload : Text) (rest : List HostMove),
    s.pending = .command w payload :: rest → s.fault = false →
      ((∀ op, ¬ SelectsRow w payload op) → step s = .next (({ s with pending := rest } : State).faulted 1 w))
        ∧ ((w.toNat / 2 ^ 24 = 0 ∨ 0x0F ≤ w.toNat / 2 ^ 24) → ∀ op, ¬ SelectsRow w payload op)

/-- Words written out from the encodings of rules R56 to R64 decode to the commands they stand for. -/
def Obligations.SampleWordsDecode : Prop :=
  Sys2Proof.decode 0x01000817 [] = .ok (.config 8 23)
    ∧ Sys2Proof.decode 0x02000000 [] = .ok .rdfmt
    ∧ Sys2Proof.decode 0x03000003 [0x31, 0x2E, 0x30] = .ok (.encode [0x31, 0x2E, 0x30])
    ∧ Sys2Proof.decode 0x04000000 [] = .ok .decode
    ∧ Sys2Proof.decode 0x0700001F [] = .ok (.toggle 31)
    ∧ Sys2Proof.decode 0x08000109 [] = .ok (.setrange 9 true)
    ∧ Sys2Proof.decode 0x09000100 [] = .ok (.setall true)
    ∧ Sys2Proof.decode 0x0E000000 [] = .ok .rdstat
    ∧ Sys2Proof.decode 0x0E000001 [] = .error .reservedBit
    ∧ Sys2Proof.decode 0x0F000000 [] = .error .unknownOpcode

/-- The lines of rule R69's listing assemble to the words and payloads it gives. -/
def Obligations.AssemblerReadsTheListing : Prop :=
  (assemble (ascii "CONFIG 8, 23          ; W = 0x01000817")).map Sys2Proof.encode = some (0x01000817, [])
    ∧ (assemble (ascii "RDFMT")).map Sys2Proof.encode = some (0x02000000, [])
    ∧ (assemble (ascii "ENCODE \"1.0\"")).map Sys2Proof.encode = some (0x03000003, [0x31, 0x2E, 0x30])
    ∧ (assemble (ascii "ENCODE hex:2D31")).map Sys2Proof.encode = some (0x03000002, [0x2D, 0x31])
    ∧ (assemble (ascii "DECODE")).map Sys2Proof.encode = some (0x04000000, [])
    ∧ (assemble (ascii "LDBITS 0x1")).map Sys2Proof.encode = some (0x05000010, List.replicate 15 0 ++ [1])
    ∧ (assemble (ascii "RDBITS")).map Sys2Proof.encode = some (0x06000000, [])
    ∧ (assemble (ascii "TOGGLE 31")).map Sys2Proof.encode = some (0x0700001F, [])
    ∧ (assemble (ascii "SETRANGE 9, 1")).map Sys2Proof.encode = some (0x08000109, [])
    ∧ (assemble (ascii "SETALL 0")).map Sys2Proof.encode = some (0x09000000, [])
    ∧ (assemble (ascii "INVERT")).map Sys2Proof.encode = some (0x0A000000, [])
    ∧ (assemble (ascii "GROUPED")).map Sys2Proof.encode = some (0x0B000000, [])
    ∧ (assemble (ascii "HEX")).map Sys2Proof.encode = some (0x0C000000, [])
    ∧ (assemble (ascii "CHARS")).map Sys2Proof.encode = some (0x0D000000, [])
    ∧ (assemble (ascii "RDSTAT")).map Sys2Proof.encode = some (0x0E000000, [])

/-! ## Steps -/

/-- When the host's next move is a command that decodes, the step is `exec` of it on the state without that move. -/
def Obligations.StepRunsTheDecodedCommand : Prop :=
  ∀ (s : State) (w : Word) (payload : Text) (rest : List HostMove) (i : Instr),
    s.pending = .command w payload :: rest → Sys2Proof.decode w payload = .ok i →
      step s = exec i { s with pending := rest }

/-- With no move waiting a step changes nothing (the model's form of "between commands the FCU is idle and holds its
state"; the waiting list is the model's own field, log 2). -/
def Obligations.IdleStepHoldsTheState : Prop :=
  ∀ s : State, s.pending = [] → step s = .next s

/-- A hardware reset clears CFGV, FAULT, FCAUSE and FCMD whatever the state before, answers nothing and takes the one
move (rule R200). What it leaves in EXPW, MANW and BITS is the model's choice (log 1) and is not stated. -/
def Obligations.ResetStepClearsTheFlags : Prop :=
  ∀ (s : State) (rest : List HostMove), s.pending = .reset :: rest →
    ∃ t, step s = .next t ∧ t.cfgv = false ∧ t.fault = false ∧ t.fcause = 0 ∧ t.fcmd = 0
      ∧ t.pending = rest ∧ t.responses = s.responses

/-- The state after hardware reset is unconfigured and not halted with no cause and no word recorded, and it meets the
invariants (rules R37, R202, R36). -/
def Obligations.ResetStateMeetsTheInvariant : Prop :=
  State.reset.cfgv = false ∧ State.reset.fault = false ∧ State.reset.fcause = 0 ∧ State.reset.fcmd = 0
    ∧ State.reset.Inv

/-- Every step keeps the invariants (a) to (d) of rule R36, from any state that meets them. -/
def Obligations.EveryStepKeepsTheInvariant : Prop :=
  ∀ s t : State, s.Inv → step s = .next t → t.Inv

/-- The invariants hold in every state that any sequence of host moves reaches from reset (rule R36). -/
def Obligations.EveryReachableStateMeetsTheInvariant : Prop :=
  ∀ (moves : List HostMove) (k : Nat) (t : State),
    Host.Core.run Sys2Proof.core k ({ State.reset with pending := moves } : State) = .next t → t.Inv

/-- No step stops: every one ends in a next state (rule R52). -/
def Obligations.EveryStepCompletes : Prop :=
  ∀ s : State, ∃ t, step s = .next t

/-- As many steps as there are waiting moves take every one of them, and answer each command with exactly one response
and each reset with none (rules R52, R70, R212). The waiting moves and the responses are the model's own lists (logs 2
and 3). -/
def Obligations.EveryMoveIsTakenAndAnswered : Prop :=
  ∀ s : State, ∃ t : State, Host.Core.run Sys2Proof.core s.pending.length s = .next t ∧ t.pending = []
    ∧ ∃ rs : List Response, t.responses = s.responses ++ rs
      ∧ rs.length = (s.pending.filter fun m => decide (m ≠ .reset)).length

/-! ## Checks, flags and faults -/

/-- The halted state (rule R185): every pair but a well-formed RDSTAT is answered HALTED and changes nothing, RDSTAT
executes, and a hardware reset leaves the state. -/
def Obligations.HaltedUnitIgnoresCommands : Prop :=
  ∀ (s : State) (move : HostMove) (rest : List HostMove), s.fault = true → s.pending = move :: rest →
    match move with
    | .reset => ∃ t, step s = .next t ∧ t.fault = false
    | .command w payload =>
      if w = 0x0E000000 ∧ payload = [] then
        step s = .next (({ s with pending := rest } : State).answered (.ok (.status s.cfgv true s.fcause s.fcmd)))
      else step s = .next (({ s with pending := rest } : State).answered .halted)

/-- In the unconfigured state every legal command but CONFIG and RDSTAT raises NOT_CONFIGURED (rule R186). -/
def Obligations.UnconfiguredUnitFaults : Prop :=
  ∀ (i : Instr) (s : State), s.fault = false → s.cfgv = false → (∀ we wm, i ≠ .config we wm) → i ≠ .rdstat →
    exec i s = .next (s.faulted 2 (commandWord i))

/-- From a halted state, however many steps run without a reset, FAULT stays and FCAUSE, FCMD, CFGV, EXPW, MANW and
BITS keep their values (rules R32, R185, R189). -/
def Obligations.HaltedUnitStaysHalted : Prop :=
  ∀ (s t : State) (k : Nat), s.fault = true → (∀ m ∈ s.pending, m ≠ HostMove.reset) →
    Host.Core.run Sys2Proof.core k s = .next t → s.SameFaults t ∧ s.SameCodec t

/-- When FAULT and CFGV change (rule R30): FAULT is set exactly by an answered fault, CFGV exactly by a CONFIG that
answers OK, and a hardware reset clears both. -/
def Obligations.FlagsChangeOnlyAsStated : Prop :=
  ∀ (s t : State) (move : HostMove) (rest : List HostMove), s.pending = move :: rest → step s = .next t →
    match move with
    | .reset => t.fault = false ∧ t.cfgv = false
    | .command w payload =>
      (t.fault = true ↔ s.fault = true ∨ t.responses = s.responses ++ [.fault])
        ∧ (t.cfgv = true ↔ s.cfgv = true
            ∨ ((∃ we wm, Sys2Proof.decode w payload = .ok (.config we wm))
                ∧ ∃ d, t.responses = s.responses ++ [.ok d]))

/-- A fault is precise (rule R183): it is raised with FAULT = 0, latches FAULT, a cause of 1 to 6 and the whole command
word, and writes nothing else. -/
def Obligations.FaultIsPrecise : Prop :=
  ∀ (s t : State) (w : Word) (payload : Text) (rest : List HostMove),
    s.pending = .command w payload :: rest → step s = .next t → t.responses = s.responses ++ [.fault] →
      s.fault = false ∧ ∃ code : BitVec 3, 1 ≤ code.toNat ∧ code.toNat ≤ 6
        ∧ t = ({ s with pending := rest } : State).faulted code w

/-- FCAUSE and FCMD are written by a command only on the transition of FAULT from 0 to 1 (rule R32). -/
def Obligations.FirstFaultWins : Prop :=
  ∀ (s t : State) (w : Word) (payload : Text) (rest : List HostMove),
    s.pending = .command w payload :: rest → step s = .next t →
      (t.fcause ≠ s.fcause ∨ t.fcmd ≠ s.fcmd) → s.fault = false ∧ t.fault = true

/-- Who may write what (rule R27): a command not answered OK writes none of CFGV, EXPW, MANW and BITS, and a command
that is none of the seven writers leaves BITS as it is. -/
def Obligations.OnlyCompletedWritersWrite : Prop :=
  ∀ (s t : State) (w : Word) (payload : Text) (rest : List HostMove),
    s.pending = .command w payload :: rest → step s = .next t →
      ((∀ d, t.responses ≠ s.responses ++ [.ok d]) → s.SameCodec t)
        ∧ (∀ i, Sys2Proof.decode w payload = .ok i →
            i.opcode ∉ [Opcode.config, .encode, .ldbits, .toggle, .setrange, .setall, .invert] → s.SameCodec t)

/-! ## Commands -/

/-- CONFIG in a unit that is not halted, configured or not (rule R86): legal widths set EXPW, MANW and CFGV, zero BITS
and answer the derived constants; any others raise BAD_FORMAT, checked on the whole 8-bit fields. -/
def Obligations.ConfigSetsTheFormat : Prop :=
  ∀ (we wm : BitVec 8) (s : State), s.fault = false →
    if LegalWidths we.toNat wm.toNat then
      ∃ (e : BitVec 4) (m : BitVec 7) (bias : BitVec 14) (emin : BitVec 15) (emax : BitVec 14) (n : BitVec 8),
        e.toNat = we.toNat ∧ m.toNat = wm.toNat ∧ bias.toNat = 2 ^ (we.toNat - 1) - 1
          ∧ emin.toInt = 1 - (bias.toNat : Int) ∧ (emax.toNat : Int) = 2 ^ we.toNat - 2 - (bias.toNat : Int)
          ∧ n.toNat = 1 + we.toNat + wm.toNat
          ∧ exec (.config we wm) s = .next { s with
              cfgv := true, expw := e, manw := m, bits := 0,
              responses := s.responses ++ [.ok (.configured bias emin emax n 0)] }
    else exec (.config we wm) s = .next (s.faulted 3 (commandWord (.config we wm)))

/-- RDFMT answers the widths and their derived constants and writes nothing (rule R88). -/
def Obligations.RdfmtAnswersTheConstants : Prop :=
  ∀ s : State, s.Ready → LegalWidths s.we s.wm →
    ∃ (bias : BitVec 14) (emin : BitVec 15) (emax : BitVec 14) (n : BitVec 8),
      bias.toNat = 2 ^ (s.we - 1) - 1 ∧ emin.toInt = 1 - (bias.toNat : Int)
        ∧ (emax.toNat : Int) = 2 ^ s.we - 2 - (bias.toNat : Int) ∧ n.toNat = 1 + s.we + s.wm
        ∧ exec .rdfmt s = .next (s.answered (.ok (.format s.expw s.manw bias emin emax n)))

/-- LDBITS (rule R151): a payload that is not 16 bytes raises BAD_LENGTH, a value of 2^N or more BAD_VALUE, and any other
value is written and answered; byte 0 is the most significant. -/
def Obligations.LdbitsWritesItsValue : Prop :=
  ∀ (payload : Text) (s : State), s.Ready →
    (payload.length ≠ 16 → exec (.ldbits payload) s = .next (s.faulted 5 (commandWord (.ldbits payload))))
      ∧ (payload.length = 16 →
          ∃ v : Bits, (∀ i < 16, some (v.extractLsb' (120 - 8 * i) 8) = payload[i]?)
            ∧ (2 ^ s.n ≤ v.toNat → exec (.ldbits payload) s = .next (s.faulted 6 (commandWord (.ldbits payload))))
            ∧ (v.toNat < 2 ^ s.n → exec (.ldbits payload) s = .next (s.wrote v)))

/-- RDBITS answers BITS and writes nothing (rule R152); the bits above N of the answer are 0. -/
def Obligations.RdbitsAnswersTheBits : Prop :=
  ∀ s : State, s.Working →
    exec .rdbits s = .next (s.answered (.ok (.bits s.bits))) ∧ ∀ k, s.n ≤ k → s.bits.getLsbD k = false

/-- TOGGLE (rules R153, R154): an index below N inverts the bit of that index, counted from the sign, and keeps every
other bit of the register; any other index raises BAD_INDEX. -/
def Obligations.ToggleInvertsOneBit : Prop :=
  ∀ (idx : BitVec 8) (s : State), s.Ready → s.n ≤ 128 →
    (s.n ≤ idx.toNat → exec (.toggle idx) s = .next (s.faulted 4 (commandWord (.toggle idx))))
      ∧ (idx.toNat < s.n → ∃ v : Bits,
          (∀ j < s.n, v.getLsbD (s.n - 1 - j)
              = if j = idx.toNat then !s.bits.getLsbD (s.n - 1 - j) else s.bits.getLsbD (s.n - 1 - j))
            ∧ (∀ k, s.n ≤ k → v.getLsbD k = s.bits.getLsbD k)
            ∧ exec (.toggle idx) s = .next (s.wrote v))

/-- SETRANGE (rules R155, R156): an index below N sets the bits from that index to the last to V and keeps those before
it; any other index, N among them, raises BAD_INDEX. -/
def Obligations.SetrangeSetsTheTail : Prop :=
  ∀ (idx : BitVec 8) (b : Bool) (s : State), s.Ready → s.n ≤ 128 →
    (s.n ≤ idx.toNat → exec (.setrange idx b) s = .next (s.faulted 4 (commandWord (.setrange idx b))))
      ∧ (idx.toNat < s.n → ∃ v : Bits,
          (∀ j < s.n, v.getLsbD (s.n - 1 - j) = if idx.toNat ≤ j then b else s.bits.getLsbD (s.n - 1 - j))
            ∧ (∀ k, s.n ≤ k → v.getLsbD k = s.bits.getLsbD k)
            ∧ exec (.setrange idx b) s = .next (s.wrote v))

/-- SETALL writes V times 2^N − 1 (rule R157). -/
def Obligations.SetallSetsEveryBit : Prop :=
  ∀ (b : Bool) (s : State), s.Ready → s.n ≤ 128 →
    ∃ v : Bits, v.toNat = b.toNat * (2 ^ s.n - 1) ∧ exec (.setall b) s = .next (s.wrote v)

/-- INVERT writes 2^N − 1 less BITS (rule R158). -/
def Obligations.InvertComplementsEveryBit : Prop :=
  ∀ s : State, s.Working →
    ∃ v : Bits, v.toNat = 2 ^ s.n - 1 - s.bits.toNat ∧ exec .invert s = .next (s.wrote v)

/-- GROUPED answers N + 2 characters: the bits in order of index, with one space after the sign and one after the
exponent field; it writes nothing (rules R165, R166). -/
def Obligations.GroupedShowsTheFields : Prop :=
  ∀ s : State, s.Ready →
    ∃ text : Text, exec .grouped s = .next (s.answered (.ok (.text text))) ∧ text.length = s.n + 2
      ∧ text[1]? = some 0x20 ∧ text[2 + s.we]? = some 0x20
      ∧ ∀ j < s.n, text[if j = 0 then 0 else if j ≤ s.we then j + 1 else j + 2]?
          = some (if s.bits.getLsbD (s.n - 1 - j) then 0x31 else 0x30)

/-- HEX answers ceil(N/4) upper-case hexadecimal digits whose number is BITS; it writes nothing (rules R167, R169). -/
def Obligations.HexShowsTheNumber : Prop :=
  ∀ s : State, s.Working →
    ∃ text : Text, exec .hex s = .next (s.answered (.ok (.text text))) ∧ text.length = (s.n + 3) / 4
      ∧ (∀ c ∈ text, (hexDigit c).isSome = true)
      ∧ text.foldl (fun acc c => acc * 16 + (hexDigit c).getD 0) 0 = s.bits.toNat

/-- CHARS answers the bias, P and the four characteristic values exactly and rendered; it writes nothing (rules R170 to
R172). -/
def Obligations.CharsGivesTheCharacteristics : Prop :=
  ∀ s : State, s.Ready → LegalWidths s.we s.wm →
    let biasZ : Int := 2 ^ (s.we - 1) - 1
    let digits : Nat := if s.wm ≤ 53 then 17 else 30
    ∃ (bias : BitVec 14) (p : BitVec 5) (eps maxn minn mind : Characteristic),
      (bias.toNat : Int) = biasZ ∧ p.toNat = digits
        ∧ IsCharacteristic 1 (-(s.wm : Int)) digits eps
        ∧ IsCharacteristic (2 ^ (s.wm + 1) - 1) (2 ^ s.we - 2 - biasZ - s.wm) digits maxn
        ∧ IsCharacteristic 1 (1 - biasZ) digits minn
        ∧ IsCharacteristic 1 (1 - biasZ - s.wm) digits mind
        ∧ exec .chars s = .next (s.answered (.ok (.chars bias p eps maxn minn mind)))

/-- RDSTAT answers CFGV, FAULT, FCAUSE and FCMD in every state, halted or not, configured or not, and writes nothing
(rule R188). -/
def Obligations.RdstatReadsTheFaultState : Prop :=
  ∀ s : State, exec .rdstat s = .next (s.answered (.ok (.status s.cfgv s.fault s.fcause s.fcmd)))

/-- ENCODE of a text that is not too long (rule R100): an infinity token writes PAT_INF, a NaN token PAT_NAN, a number
EncodeValue of its exact value, and any other text is answered INPUT_ERROR with nothing written. -/
def Obligations.EncodeWritesItsToken : Prop :=
  ∀ (text : Text) (s : State), s.Ready → LegalWidths s.we s.wm → text.length ≤ Config.textMax →
    match lex text with
    | .error => exec (.encode text) s = .next (s.answered .inputError)
    | .inf sg => ∃ v : Bits, v.toNat = sg.toNat * 2 ^ (s.n - 1) + (2 ^ s.we - 1) * 2 ^ s.wm
        ∧ exec (.encode text) s = .next (s.wrote v)
    | .nan sg => ∃ v : Bits, v.toNat = sg.toNat * 2 ^ (s.n - 1) + (2 ^ (s.n - 1) - 1)
        ∧ exec (.encode text) s = .next (s.wrote v)
    | .number sg coef x => ∃ v : Bits, (v.toNat : ℤ) = encodeQ s.we s.wm sg (decimal coef x)
        ∧ exec (.encode text) s = .next (s.wrote v)

/-- A text longer than TEXT_MAX raises BAD_LENGTH whatever it says and changes nothing else, the empty text is within
bounds and answers INPUT_ERROR, and TEXT_MAX is at least 64 and at most 65535 (rule R125). -/
def Obligations.EncodeTooLongFaults : Prop :=
  (64 ≤ Config.textMax ∧ Config.textMax ≤ 65535)
    ∧ ∀ s : State, s.Ready →
        (∀ text : Text, Config.textMax < text.length →
            exec (.encode text) s = .next (s.faulted 5 (commandWord (.encode text))))
          ∧ exec (.encode []) s = .next (s.answered .inputError)

/-- The STATUS codes (rule R70), and DECODE of an Infinity, a NaN or a Zero (rules R132 to R134): the class with its
code (rule R74), the sign bit, zero numeric fields and the fixed text; it writes nothing. -/
def Obligations.DecodeNamesInfinityNanZero : Prop :=
  (∀ d, (Response.ok d).statusCode = 0) ∧ Response.inputError.statusCode = 1 ∧ Response.fault.statusCode = 2
    ∧ Response.halted.statusCode = 3
    ∧ ∀ s : State, s.Ready → LegalWidths s.we s.wm →
      let ef := s.bits.toNat / 2 ^ s.wm % 2 ^ s.we
      let mf := s.bits.toNat % 2 ^ s.wm
      let sg := s.bits.getLsbD (s.n - 1)
      let p : BitVec 5 := if s.wm ≤ 53 then 17 else 30
      let answer := fun (c : FpClass) (code : BitVec 3) (text : Text) => c.code = code
        ∧ exec .decode s = .next (s.answered (.ok (.decoded
          { cls := c, sign := sg, sig := 0, exp2 := 0, p := p, coef := 0, exp10 := 0, text := text })))
      let infinity : Text := [0x49, 0x6E, 0x66, 0x69, 0x6E, 0x69, 0x74, 0x79]
      (ef = 2 ^ s.we - 1 → mf = 0 → answer .infinity 3 (if sg then 0x2D :: infinity else infinity))
        ∧ (ef = 2 ^ s.we - 1 → mf ≠ 0 → answer .nan 4 [0x4E, 0x61, 0x4E])
        ∧ (ef = 0 → mf = 0 → answer .zero 2 [0x30])

/-- DECODE of a Denormal or Normal (rules R130, R135 to R142): the class with its code (rule R74) and sign,
the exact value as SIG and EXP2, its digits as COEF and EXP10 by the exact rendering rule, and their text; it writes nothing. -/
def Obligations.DecodeGivesFiniteValues : Prop :=
  ∀ s : State, s.Ready → LegalWidths s.we s.wm →
    let ef := s.bits.toNat / 2 ^ s.wm % 2 ^ s.we
    let mf := s.bits.toNat % 2 ^ s.wm
    let biasZ : Int := 2 ^ (s.we - 1) - 1
    let digits : Nat := if s.wm ≤ 53 then 17 else 30
    ef ≠ 2 ^ s.we - 1 → (ef ≠ 0 ∨ mf ≠ 0) →
      ∃ d : Decoded, exec .decode s = .next (s.answered (.ok (.decoded d)))
        ∧ d.cls = (if ef = 0 then .denormal else .normal) ∧ d.cls.code = (if ef = 0 then 1 else 0)
        ∧ d.sign = s.bits.getLsbD (s.n - 1)
        ∧ d.sig.toNat = (if ef = 0 then mf else 2 ^ s.wm + mf)
        ∧ d.exp2.toInt = (if ef = 0 then 1 - biasZ else (ef : Int) - biasZ) - s.wm
        ∧ d.p.toNat = digits
        ∧ ((d.coef.toNat : ℤ), d.exp10.toInt) = renderQ (dyadic d.sig.toNat d.exp2.toInt) digits
        ∧ LayoutText d.sign d.coef.toNat d.exp10.toInt digits d.text

/-! ## The encoder -/

/-- The machine's integer encoder, with the bounds of rule R210, is EncodeValue of the exact rational (rules R119, R210)
for every number and every legal format. -/
def Obligations.EncoderFollowsTheExactRule : Prop :=
  ∀ (we wm : Nat) (sg : Bool) (coef : Nat) (x : Int), LegalWidths we wm →
    (encodeDecimal we wm sg coef x : ℤ) = encodeQ we wm sg (decimal coef x)

/-- The encoded magnitude is the one nearest to the value, capped at 2^(emax+1), among all the format's non-negative
values and the point that stands for Infinity; of two equally near, the larger (rule R121). -/
def Obligations.EncodedValueIsNearest : Prop :=
  ∀ (we wm coef : Nat) (x : Int), LegalWidths we wm → 0 < coef →
    let top := (2 ^ we - 1) * 2 ^ wm
    let d := min (decimal coef x) (gridValue we wm top)
    let m := encodedMagnitude we wm coef x
    m ≤ top ∧ ∀ k ≤ top, |d - gridValue we wm m| < |d - gridValue we wm k|
      ∨ (|d - gridValue we wm m| = |d - gridValue we wm k| ∧ gridValue we wm k ≤ gridValue we wm m)

/-- The thresholds of rule R121: zero below half the smallest denormal, Infinity from the largest normal plus half a unit
on, and a Denormal or Normal between them. -/
def Obligations.EncoderThresholds : Prop :=
  ∀ (we wm coef : Nat) (x : Int), LegalWidths we wm → 0 < coef →
    let biasZ : Int := 2 ^ (we - 1) - 1
    let d := decimal coef x
    let m := encodedMagnitude we wm coef x
    (m = 0 ↔ d < 2 ^ (1 - biasZ - wm - 1))
      ∧ (m = (2 ^ we - 1) * 2 ^ wm ↔ (2 - 2 ^ (-((wm : Int) + 1))) * 2 ^ (2 ^ we - 2 - biasZ) ≤ d)
      ∧ (m ≠ 0 → m ≠ (2 ^ we - 1) * 2 ^ wm →
          classify we (m / 2 ^ wm) (m % 2 ^ wm) = .denormal ∨ classify we (m / 2 ^ wm) (m % 2 ^ wm) = .normal)

/-- Round trip (rule R122): the exact value of every Denormal or Normal bit string is some decimal number, and encoding
any decimal number of that value with that sign gives the bit string back. -/
def Obligations.EncodeInvertsTheValue : Prop :=
  ∀ (we wm : Nat) (b : Bits), LegalWidths we wm → b.toNat < 2 ^ totalBits we wm →
    (classOf we wm b = .denormal ∨ classOf we wm b = .normal) →
      (∃ (coef : Nat) (x : Int), decimal coef x = decodedMagnitude we wm b)
        ∧ ∀ (coef : Nat) (x : Int), decimal coef x = decodedMagnitude we wm b →
            encodeDecimal we wm (signOf we wm b) coef x = b.toNat

/-- The sign is used only as the first bit of the result (rule R123). -/
def Obligations.EncodeSignSymmetry : Prop :=
  ∀ (we wm coef : Nat) (x : Int), LegalWidths we wm →
    encodeDecimal we wm false coef x < 2 ^ (we + wm)
      ∧ encodeDecimal we wm true coef x = 2 ^ (we + wm) + encodeDecimal we wm false coef x

/-- The low N − 1 bits of what EncodeValue gives grow with the value, for either sign (rule R128). -/
def Obligations.EncodeIsMonotone : Prop :=
  ∀ (we wm coef₁ coef₂ : Nat) (x₁ x₂ : Int) (sg : Bool), LegalWidths we wm → decimal coef₁ x₁ ≤ decimal coef₂ x₂ →
    encodeDecimal we wm sg coef₁ x₁ % 2 ^ (we + wm) ≤ encodeDecimal we wm sg coef₂ x₂ % 2 ^ (we + wm)

/-- Infinity, NaN and zero tokens encode to bit strings of that class and sign (rule R124). -/
def Obligations.TokensKeepTheirClass : Prop :=
  ∀ (we wm : Nat) (sg : Bool) (x : Int), LegalWidths we wm →
    let keeps := fun (token : Token) (c : FpClass) => ∃ v, encodeToken we wm token = some v
      ∧ (decodeBits we wm (BitVec.ofNat 128 v)).cls = c ∧ (decodeBits we wm (BitVec.ofNat 128 v)).sign = sg
    keeps (.inf sg) .infinity ∧ keeps (.nan sg) .nan ∧ keeps (.number sg 0 x) .zero

/-! ## The lexer -/

/-- A text reads as a number exactly when it is a sign and a number of the grammar, with the grammar's value (rules R102,
R105, R106). -/
def Obligations.LexerReadsExactlyTheGrammar : Prop :=
  ∀ (text : Text) (sg : Bool) (coef : Nat) (x : Int),
    lex text = .number sg coef x ↔ ∃ body, SignedText text sg body ∧ NumberText body coef x

/-- A text reads as an infinity or a NaN exactly when, after its sign, it is one of the words with each letter in lower
or upper case, and nothing else (rules R14, R102 to R104). -/
def Obligations.LexerReadsTheTokens : Prop :=
  ∀ (text : Text) (sg : Bool),
    (lex text = .inf sg ↔ ∃ body, SignedText text sg body
        ∧ (InAnyCase body wordInf ∨ InAnyCase body wordInfinity))
      ∧ (lex text = .nan sg ↔ ∃ body, SignedText text sg body ∧ InAnyCase body wordNan)

/-- Every text that rules R102 to R105 do not accept is an error, a text with a byte of 0x80 or more and the empty text
among them (rule R107). -/
def Obligations.EveryOtherTextIsAnError : Prop :=
  (∀ text : Text, lex text = .error ↔ ∀ (sg : Bool) (body : Text), SignedText text sg body →
      ¬ InAnyCase body wordInf ∧ ¬ InAnyCase body wordInfinity ∧ ¬ InAnyCase body wordNan
        ∧ ∀ (coef : Nat) (x : Int), ¬ NumberText body coef x)
    ∧ (∀ (text : Text) (b : Byte), b ∈ text → 0x80 ≤ b.toNat → lex text = .error)
    ∧ lex [] = .error

/-! ## The decoder's text -/

/-- The machine's integer renderer is Render of the exact rational, and gives exactly P digits (rules R139, R140). -/
def Obligations.RendererFollowsTheExactRule : Prop :=
  ∀ (v : Frac) (p : Nat), 0 < v.num → 0 < v.den → (p = 17 ∨ p = 30) →
    (((render v p).1 : ℤ), (render v p).2) = renderQ ((v.num : ℚ) / v.den) p
      ∧ 10 ^ (p - 1) ≤ (render v p).1 ∧ (render v p).1 < 10 ^ p

/-- The text has the positional or scientific form byte for byte (rules R141, R142), and spells the rounded value: read
back as a literal it has the same sign and exactly the value COEF · 10^(EXP10 − P + 1) (rules R139, R144). -/
def Obligations.LayoutReadsBack : Prop :=
  ∀ (sg : Bool) (coef : Nat) (x10 : Int) (p : Nat), (p = 17 ∨ p = 30) → 10 ^ (p - 1) ≤ coef → coef < 10 ^ p →
    LayoutText sg coef x10 p (layout sg coef x10 p)
      ∧ ∃ (c : Nat) (x : Int), lex (layout sg coef x10 p) = .number sg c x ∧ decimal c x = decimal coef (x10 - p + 1)

/-- DECODE's text has 1 to 38 characters, begins with a minus sign exactly for a negative Normal, Denormal or
Infinity, and never with a plus sign (rules R143, R149). -/
def Obligations.DecodeTextSignAndLength : Prop :=
  ∀ (we wm : Nat) (b : Bits), LegalWidths we wm →
    let d := decodeBits we wm b
    1 ≤ d.text.length ∧ d.text.length ≤ 38 ∧ d.text.head? ≠ some 0x2B
      ∧ (d.text.head? = some 0x2D
          ↔ d.sign = true ∧ (d.cls = .normal ∨ d.cls = .denormal ∨ d.cls = .infinity))

/-- The fields of DECODE lose nothing to their widths (rule R72): each equals the integer it was cut from, TLEN the
text's length (rule R73), and the integers stay in rule R72's ranges. -/
def Obligations.DecodeFieldsStayInRange : Prop :=
  ∀ (we wm : Nat) (b : Bits), LegalWidths we wm →
    let d := decodeBits we wm b
    let ef := expField we wm b
    let mf := manField wm b
    let sig := significand wm ef mf
    let exp2 := exponent2 we wm ef
    let digits := render (scaledInt 2 sig exp2) (digitCount wm)
    d.p.toNat = digitCount wm ∧ (textLen d.text).toNat = d.text.length ∧ d.cls = classify we ef mf
      ∧ d.cls.code.toNat ≤ 4
      ∧ if d.cls = .normal ∨ d.cls = .denormal then
          (d.sig.toNat = sig ∧ d.exp2.toInt = exp2 ∧ d.coef.toNat = digits.1 ∧ d.exp10.toInt = digits.2)
            ∧ 1 ≤ sig ∧ sig < 2 ^ 113 ∧ -16494 ≤ exp2 ∧ exp2 ≤ 16381
            ∧ 10 ^ (digitCount wm - 1) ≤ digits.1 ∧ digits.1 < 10 ^ digitCount wm ∧ digits.1 < 2 ^ 100
            ∧ -4966 ≤ digits.2 ∧ digits.2 ≤ 4932
        else d.sig = 0 ∧ d.exp2 = 0 ∧ d.coef = 0 ∧ d.exp10 = 0

/-! ## Bit strings -/

/-- The algebra of the bit operations (rule R159). -/
def Obligations.BitOperationAlgebra : Prop :=
  ∀ (n i j : Nat) (b c : Bits) (v : Bool), n ≤ 128 → i < n → j < n → b.toNat < 2 ^ n → c.toNat < 2 ^ n →
    toggledBits n i (toggledBits n i b) = b
      ∧ toggledBits n i (toggledBits n j b) = toggledBits n j (toggledBits n i b)
      ∧ invertedBits n (invertedBits n b) = b
      ∧ (∀ order : List Nat, order.Perm (List.range n) →
          invertedBits n b = order.foldl (fun acc k => toggledBits n k acc) b)
      ∧ rangeSetBits n 0 v b = allSetBits n v
      ∧ rangeSetBits n j v (rangeSetBits n i v b) = rangeSetBits n (min i j) v b
      ∧ ∃ toggles : List Nat, toggles.length ≤ n ∧ (∀ k ∈ toggles, k < n)
          ∧ toggles.foldl (fun acc k => toggledBits n k acc) b = c

/-- LDBITS of a bit string's 16 big-endian bytes writes that bit string, and RDBITS then answers it (rules R43, R151,
R152). -/
def Obligations.LoadedBitsReadBack : Prop :=
  ∀ (s : State) (v : Bits), s.Ready → v.toNat < 2 ^ s.n →
    (bitsBytes v).length = 16
      ∧ (∀ i < 16, (bitsBytes v)[i]? = some (v.extractLsb' (120 - 8 * i) 8))
      ∧ exec (.ldbits (bitsBytes v)) s = .next (s.wrote v)
      ∧ exec .rdbits (s.wrote v) = .next ((s.wrote v).answered (.ok (.bits v)))

/-- How many bit strings of a format have each class, counting both signs; the five counts sum to 2^N (rule R91). -/
def Obligations.ClassCounts : Prop :=
  ∀ we wm : Nat, LegalWidths we wm →
    let count := fun c : FpClass =>
      ((Finset.range (2 ^ totalBits we wm)).filter fun b => classOf we wm (BitVec.ofNat 128 b) = c).card
    count .zero = 2 ∧ count .infinity = 2 ∧ count .nan = 2 * (2 ^ wm - 1) ∧ count .denormal = 2 * (2 ^ wm - 1)
      ∧ count .normal = 2 * (2 ^ we - 2) * 2 ^ wm
      ∧ count .zero + count .infinity + count .nan + count .denormal + count .normal = 2 ^ totalBits we wm

/-- The values DECODE gives the extreme finite patterns (rule R93). -/
def Obligations.ExtremePatternValues : Prop :=
  ∀ we wm : Nat, LegalWidths we wm →
    let biasZ : Int := 2 ^ (we - 1) - 1
    let value := fun k : Nat => decodedMagnitude we wm (BitVec.ofNat 128 k)
    value ((2 ^ we - 2) * 2 ^ wm + (2 ^ wm - 1)) = (2 - 2 ^ (-(wm : Int))) * 2 ^ (2 ^ we - 2 - biasZ)
      ∧ value (2 ^ wm) = 2 ^ (1 - biasZ)
      ∧ value (2 ^ wm - 1) = (2 ^ wm - 1) * 2 ^ (1 - biasZ - wm)
      ∧ value 1 = 2 ^ (1 - biasZ - wm)

/-- The positive finite values DECODE gives grow with the low N − 1 bits of the pattern (rule R93). -/
def Obligations.FiniteValuesIncrease : Prop :=
  ∀ we wm k k' : Nat, LegalWidths we wm → k < k' → k' < (2 ^ we - 1) * 2 ^ wm →
    decodedMagnitude we wm (BitVec.ofNat 128 k) < decodedMagnitude we wm (BitVec.ofNat 128 k')

/-! ## What a response can depend on -/

/-- While CFGV = 0 no sequence of moves shows anything of EXPW, MANW and BITS: two unconfigured states that differ only
there give the same responses for ever, and are equal once configured (rule R26). -/
def Obligations.UnconfiguredRegistersAreUnobservable : Prop :=
  ∀ (s s' : State), s.cfgv = false → s'.cfgv = false → s.SameFaults s' → s'.pending = s.pending →
    s'.responses = s.responses → ∀ (k : Nat) (t : State), Host.Core.run Sys2Proof.core k s = .next t →
      ∃ t' : State, Host.Core.run Sys2Proof.core k s' = .next t' ∧ t'.responses = t.responses
        ∧ t'.cfgv = t.cfgv ∧ t.SameFaults t' ∧ (t.cfgv = true → t' = t)

/-- A move's response and effect are a function of the seven registers and the move alone, whatever was answered before
and whatever waits behind it (rule R75). -/
def Obligations.ResponseDependsOnRegistersAlone : Prop :=
  ∀ (s s' t t' : State) (move : HostMove) (rest rest' : List HostMove), s.SameCodec s' → s.SameFaults s' →
    s.pending = move :: rest → s'.pending = move :: rest' → step s = .next t → step s' = .next t' →
      t.SameCodec t' ∧ t.SameFaults t'
        ∧ ∃ rs, t.responses = s.responses ++ rs ∧ t'.responses = s'.responses ++ rs

/-- The seven reading commands complete in every ready state, change no register and answer the same when repeated (rules
R47, R147, R148). -/
def Obligations.ReadersChangeNothing : Prop :=
  ∀ (s : State) (i : Instr), s.Ready → i ∈ [Instr.decode, .rdbits, .rdfmt, .rdstat, .grouped, .hex, .chars] →
    ∃ d, exec i s = .next (s.answered (.ok d))
      ∧ exec i (s.answered (.ok d)) = .next ((s.answered (.ok d)).answered (.ok d))

/-- ENCODE reads BITS nowhere, overwrites it whole on success and keeps it whole otherwise (rule R129); CHARS does not
read it either (rule R174). -/
def Obligations.EncodeAndCharsIgnoreTheBits : Prop :=
  ∀ (s : State) (v : Bits),
    (∀ (text : Text) (u u' : State), exec (.encode text) s = .next u → exec (.encode text) { s with bits := v } = .next u' →
        u'.responses = u.responses
          ∧ ((∃ d, u.responses = s.responses ++ [.ok d]) → u' = u)
          ∧ ((∀ d, u.responses ≠ s.responses ++ [.ok d]) → u.bits = s.bits ∧ u'.bits = v))
      ∧ ∀ u u' : State, exec .chars s = .next u → exec .chars { s with bits := v } = .next u' →
          u'.responses = u.responses
end

