-- ==== Sys2Proof/Laws/State.lean ====
section
/-! SUPPORT. What each update of the state leaves in each field, so that no later proof unfolds a record update. -/

namespace Sys2Proof.Machine

/-! The fields after answering. -/

@[simp] theorem respond_cfgv (r : Response) (s : State) : (respond r s).cfgv = s.cfgv := rfl
@[simp] theorem respond_expw (r : Response) (s : State) : (respond r s).expw = s.expw := rfl
@[simp] theorem respond_manw (r : Response) (s : State) : (respond r s).manw = s.manw := rfl
@[simp] theorem respond_bits (r : Response) (s : State) : (respond r s).bits = s.bits := rfl
@[simp] theorem respond_fault (r : Response) (s : State) : (respond r s).fault = s.fault := rfl
@[simp] theorem respond_fcause (r : Response) (s : State) : (respond r s).fcause = s.fcause := rfl
@[simp] theorem respond_fcmd (r : Response) (s : State) : (respond r s).fcmd = s.fcmd := rfl
@[simp] theorem respond_pending (r : Response) (s : State) : (respond r s).pending = s.pending := rfl
@[simp] theorem respond_responses (r : Response) (s : State) : (respond r s).responses = s.responses ++ [r] := rfl

/-! The fields after raising a fault. -/

@[simp] theorem raiseFault_cfgv (c : FaultCause) (w : Word) (s : State) : (raiseFault c w s).cfgv = s.cfgv := rfl
@[simp] theorem raiseFault_expw (c : FaultCause) (w : Word) (s : State) : (raiseFault c w s).expw = s.expw := rfl
@[simp] theorem raiseFault_manw (c : FaultCause) (w : Word) (s : State) : (raiseFault c w s).manw = s.manw := rfl
@[simp] theorem raiseFault_bits (c : FaultCause) (w : Word) (s : State) : (raiseFault c w s).bits = s.bits := rfl
@[simp] theorem raiseFault_fault (c : FaultCause) (w : Word) (s : State) : (raiseFault c w s).fault = true := rfl
@[simp] theorem raiseFault_fcause (c : FaultCause) (w : Word) (s : State) : (raiseFault c w s).fcause = c.code := rfl
@[simp] theorem raiseFault_fcmd (c : FaultCause) (w : Word) (s : State) : (raiseFault c w s).fcmd = w := rfl
@[simp] theorem raiseFault_pending (c : FaultCause) (w : Word) (s : State) : (raiseFault c w s).pending = s.pending := rfl
@[simp] theorem raiseFault_responses (c : FaultCause) (w : Word) (s : State) : (raiseFault c w s).responses = s.responses ++ [.fault] := rfl

/-! The fields after writing BITS. -/

@[simp] theorem writeBits_cfgv (v : Bits) (s : State) : (writeBits v s).cfgv = s.cfgv := rfl
@[simp] theorem writeBits_expw (v : Bits) (s : State) : (writeBits v s).expw = s.expw := rfl
@[simp] theorem writeBits_manw (v : Bits) (s : State) : (writeBits v s).manw = s.manw := rfl
@[simp] theorem writeBits_bits (v : Bits) (s : State) : (writeBits v s).bits = v := rfl
@[simp] theorem writeBits_fault (v : Bits) (s : State) : (writeBits v s).fault = s.fault := rfl
@[simp] theorem writeBits_fcause (v : Bits) (s : State) : (writeBits v s).fcause = s.fcause := rfl
@[simp] theorem writeBits_fcmd (v : Bits) (s : State) : (writeBits v s).fcmd = s.fcmd := rfl
@[simp] theorem writeBits_pending (v : Bits) (s : State) : (writeBits v s).pending = s.pending := rfl
@[simp] theorem writeBits_responses (v : Bits) (s : State) : (writeBits v s).responses = s.responses ++ [.ok (.bits v)] := rfl

/-! The fields after the format-change reset. -/

@[simp] theorem setFormat_cfgv (we : BitVec 4) (wm : BitVec 7) (s : State) : (setFormat we wm s).cfgv = true := rfl
@[simp] theorem setFormat_expw (we : BitVec 4) (wm : BitVec 7) (s : State) : (setFormat we wm s).expw = we := rfl
@[simp] theorem setFormat_manw (we : BitVec 4) (wm : BitVec 7) (s : State) : (setFormat we wm s).manw = wm := rfl
@[simp] theorem setFormat_bits (we : BitVec 4) (wm : BitVec 7) (s : State) : (setFormat we wm s).bits = 0 := rfl
@[simp] theorem setFormat_fault (we : BitVec 4) (wm : BitVec 7) (s : State) : (setFormat we wm s).fault = s.fault := rfl
@[simp] theorem setFormat_fcause (we : BitVec 4) (wm : BitVec 7) (s : State) : (setFormat we wm s).fcause = s.fcause := rfl
@[simp] theorem setFormat_fcmd (we : BitVec 4) (wm : BitVec 7) (s : State) : (setFormat we wm s).fcmd = s.fcmd := rfl
@[simp] theorem setFormat_pending (we : BitVec 4) (wm : BitVec 7) (s : State) : (setFormat we wm s).pending = s.pending := rfl
@[simp] theorem setFormat_responses (we : BitVec 4) (wm : BitVec 7) (s : State) : (setFormat we wm s).responses = s.responses := rfl

/-! The fields after hardware reset. -/

@[simp] theorem hardwareReset_cfgv (s : State) : (hardwareReset s).cfgv = false := rfl
@[simp] theorem hardwareReset_expw (s : State) : (hardwareReset s).expw = 0 := rfl
@[simp] theorem hardwareReset_manw (s : State) : (hardwareReset s).manw = 0 := rfl
@[simp] theorem hardwareReset_bits (s : State) : (hardwareReset s).bits = 0 := rfl
@[simp] theorem hardwareReset_fault (s : State) : (hardwareReset s).fault = false := rfl
@[simp] theorem hardwareReset_fcause (s : State) : (hardwareReset s).fcause = 0 := rfl
@[simp] theorem hardwareReset_fcmd (s : State) : (hardwareReset s).fcmd = 0 := rfl
@[simp] theorem hardwareReset_pending (s : State) : (hardwareReset s).pending = s.pending := rfl
@[simp] theorem hardwareReset_responses (s : State) : (hardwareReset s).responses = s.responses := rfl

/-! The fields of the reset state (rules R37, R202). -/

@[simp] theorem reset_cfgv : State.reset.cfgv = false := rfl
@[simp] theorem reset_expw : State.reset.expw = 0 := rfl
@[simp] theorem reset_manw : State.reset.manw = 0 := rfl
@[simp] theorem reset_bits : State.reset.bits = 0 := rfl
@[simp] theorem reset_fault : State.reset.fault = false := rfl
@[simp] theorem reset_fcause : State.reset.fcause = 0 := rfl
@[simp] theorem reset_fcmd : State.reset.fcmd = 0 := rfl
@[simp] theorem reset_pending : State.reset.pending = [] := rfl
@[simp] theorem reset_responses : State.reset.responses = [] := rfl

end Sys2Proof.Machine
end

