-- ==== Sys2Proof/Laws/Checks.lean ====
section
/-! SUPPORT. What the common checks, the host's move and each command can do, said once. -/

namespace Sys2Proof.Machine

theorem nextMove_nil (s : State) (h : s.pending = []) : nextMove s = none := by
  simp [nextMove, h]

theorem nextMove_cons (s : State) (move : HostMove) (rest : List HostMove) (h : s.pending = move :: rest) :
    nextMove s = some (move, { s with pending := rest }) := by
  simp [nextMove, h]

theorem whenLive_halted (s : State) (action : State → State) (h : s.fault = true) :
    whenLive s action = respond .halted s := by
  simp [whenLive, h]

theorem whenLive_live (s : State) (action : State → State) (h : s.fault = false) :
    whenLive s action = action s := by
  simp [whenLive, h]

theorem whenReady_halted (w : Word) (s : State) (action : State → State) (h : s.fault = true) :
    whenReady w s action = respond .halted s :=
  whenLive_halted s _ h

theorem whenReady_unconfigured (w : Word) (s : State) (action : State → State) (hf : s.fault = false)
    (hc : s.cfgv = false) : whenReady w s action = raiseFault .notConfigured w s := by
  simp [whenReady, whenLive_live _ _ hf, hc]

theorem whenReady_ready (w : Word) (s : State) (action : State → State) (hf : s.fault = false)
    (hc : s.cfgv = true) : whenReady w s action = action s := by
  simp [whenReady, whenLive_live _ _ hf, hc]

/-- All the outcomes a command with word `w` can have (rule R187): ignored by a halted unit, a fault of one cause, a
text that is no literal, a new bit string, a new format, or an answer alone. -/
inductive Effect (w : Word) (s : State) : State → Prop where
  | halted : s.fault = true → Effect w s (respond .halted s)
  | faulted (c : FaultCause) : s.fault = false → Effect w s (raiseFault c w s)
  | notLiteral : s.fault = false → s.cfgv = true → Effect w s (respond .inputError s)
  | wrote (v : Bits) : s.fault = false → s.cfgv = true → Effect w s (writeBits v s)
  | configured (we : BitVec 4) (wm : BitVec 7) (d : RespData) : s.fault = false →
      legalFormat we.toNat wm.toNat = true → Effect w s (respond (.ok d) (setFormat we wm s))
  | read (d : RespData) : Effect w s (respond (.ok d) s)

theorem Effect.ofReady (w : Word) (s : State) (action : State → State)
    (h : s.fault = false → s.cfgv = true → Effect w s (action s)) : Effect w s (whenReady w s action) := by
  cases hf : s.fault
  · cases hc : s.cfgv
    · rw [whenReady_unconfigured w s action hf hc]; exact .faulted _ hf
    · rw [whenReady_ready w s action hf hc]; exact h hf hc
  · rw [whenReady_halted w s action hf]; exact .halted hf

/-- The bounds CONFIG checks, as numbers (rules R6, R86). -/
theorem legalFormat_iff {we wm : Nat} : legalFormat we wm = true ↔ 2 ≤ we ∧ we ≤ 15 ∧ 2 ≤ wm ∧ wm ≤ 112 := by
  simp only [legalFormat, Bool.and_eq_true, decide_eq_true_eq, Config.weMin, Config.weMax, Config.wmMin, Config.wmMax,
    and_assoc]

/-- A width that CONFIG accepts fits its register (rules R31, R63): nothing is truncated. -/
theorem legalFormat_fits {we wm : BitVec 8} (h : legalFormat we.toNat wm.toNat = true) :
    (we.setWidth 4).toNat = we.toNat ∧ (wm.setWidth 7).toNat = wm.toNat := by
  rw [legalFormat_iff] at h
  simp only [BitVec.toNat_setWidth]
  omega

/-- Every command ends in a next state, and which one is one of the outcomes of `Effect`. -/
theorem exec_effect (i : Instr) (s : State) : ∃ t, exec i s = .next t ∧ Effect (commandWord i) s t := by
  cases i with
  | config we wm =>
    refine ⟨_, rfl, ?_⟩
    cases hf : s.fault
    · rw [whenLive_live _ _ hf]
      split
      · next h =>
        have hfit := legalFormat_fits h
        exact .configured _ _ _ hf (by rw [hfit.1, hfit.2]; exact h)
      · exact .faulted _ hf
    · rw [whenLive_halted _ _ hf]; exact .halted hf
  | rdfmt => exact ⟨_, rfl, .ofReady _ _ _ fun _ _ => .read _⟩
  | encode text =>
    refine ⟨_, rfl, .ofReady _ _ _ fun hf hc => ?_⟩
    split
    · exact .faulted _ hf
    · split
      · exact .notLiteral hf hc
      · exact .wrote _ hf hc
  | decode => exact ⟨_, rfl, .ofReady _ _ _ fun _ _ => .read _⟩
  | ldbits payload =>
    refine ⟨_, rfl, .ofReady _ _ _ fun hf hc => ?_⟩
    split
    · exact .faulted _ hf
    · split
      · exact .faulted _ hf
      · exact .wrote _ hf hc
  | rdbits => exact ⟨_, rfl, .ofReady _ _ _ fun _ _ => .read _⟩
  | toggle idx =>
    refine ⟨_, rfl, .ofReady _ _ _ fun hf hc => ?_⟩
    split
    · exact .faulted _ hf
    · exact .wrote _ hf hc
  | setrange idx v =>
    refine ⟨_, rfl, .ofReady _ _ _ fun hf hc => ?_⟩
    split
    · exact .faulted _ hf
    · exact .wrote _ hf hc
  | setall v => exact ⟨_, rfl, .ofReady _ _ _ fun hf hc => .wrote _ hf hc⟩
  | invert => exact ⟨_, rfl, .ofReady _ _ _ fun hf hc => .wrote _ hf hc⟩
  | grouped => exact ⟨_, rfl, .ofReady _ _ _ fun _ _ => .read _⟩
  | hex => exact ⟨_, rfl, .ofReady _ _ _ fun _ _ => .read _⟩
  | chars => exact ⟨_, rfl, .ofReady _ _ _ fun _ _ => .read _⟩
  | rdstat => exact ⟨_, rfl, .read _⟩

/-- The cases of one step: idle, a hardware reset, a command, or a word that is no command. -/
theorem step_cases (s : State) :
    (s.pending = [] ∧ step s = .next s)
      ∨ (∃ rest, s.pending = .reset :: rest ∧ step s = .next (hardwareReset { s with pending := rest }))
      ∨ (∃ w payload rest i, s.pending = .command w payload :: rest ∧ decode w payload = .ok i
          ∧ step s = exec i { s with pending := rest })
      ∨ (∃ w payload rest e, s.pending = .command w payload :: rest ∧ decode w payload = .error e
          ∧ step s = .next (rejectCommand w { s with pending := rest })) := by
  rcases hp : s.pending with _ | ⟨move, rest⟩
  · exact .inl ⟨rfl, by simp [step, nextMove_nil s hp]⟩
  · cases move with
    | reset => exact .inr (.inl ⟨rest, rfl, by simp [step, nextMove_cons s _ _ hp]⟩)
    | command w payload =>
      cases hd : decode w payload with
      | ok i => exact .inr (.inr (.inl ⟨w, payload, rest, i, rfl, hd, by simp [step, nextMove_cons s _ _ hp, hd]⟩))
      | error e => exact .inr (.inr (.inr ⟨w, payload, rest, e, rfl, hd, by simp [step, nextMove_cons s _ _ hp, hd]⟩))

end Sys2Proof.Machine
end

