-- ==== Sys2Proof/Laws/Decode.lean ====
section
/-! SUPPORT. What the opcode map and the decoder answer, said once. -/

namespace Sys2Proof

theorem rowOf_code (op : Opcode) : rowOf op.code = some op := by
  cases op <;> decide

theorem rowOf_eq_some {b : BitVec 8} {op : Opcode} (h : rowOf b = some op) : b = op.code := by
  revert b
  cases op <;> decide

theorem rowOf_eq_some_iff {b : BitVec 8} {op : Opcode} : rowOf b = some op ↔ b = op.code :=
  ⟨rowOf_eq_some, fun h => h ▸ rowOf_code op⟩

/-- The decoder's one way to succeed (rule R65): a row, no reserved bit, and the payload's length. -/
theorem decode_ok_iff {w : Word} {payload : Text} {i : Instr} :
    decode w payload = .ok i ↔
      ∃ op : Opcode, fieldOp w = op.code ∧ w &&& reservedBits op.format = 0
        ∧ payload.length = payloadLen op.format w ∧ i = op.instr w payload := by
  unfold decode
  cases hr : rowOf (fieldOp w) with
  | none =>
    constructor
    · intro h; cases h
    · rintro ⟨op, hop, -⟩
      rw [hop, rowOf_code] at hr
      cases hr
  | some op =>
    have hop := rowOf_eq_some hr
    constructor
    · intro h
      dsimp only at h
      by_cases hb : w &&& reservedBits op.format = 0
      · rw [if_neg (not_not.mpr hb)] at h
        by_cases hl : payload.length = payloadLen op.format w
        · rw [if_neg (not_not.mpr hl)] at h
          exact ⟨op, hop, hb, hl, (Except.ok.inj h).symm⟩
        · rw [if_pos hl] at h; cases h
      · rw [if_pos hb] at h; cases h
    · rintro ⟨op', hop', hb, hl, rfl⟩
      have : op' = op := by
        have h2 := rowOf_code op'
        rw [← hop', hr] at h2
        exact (Option.some.inj h2).symm
      subst this
      dsimp only
      rw [if_neg (not_not.mpr hb), if_neg (not_not.mpr hl)]

@[simp] theorem instr_opcode (op : Opcode) (w : Word) (payload : Text) : (op.instr w payload).opcode = op := by
  cases op <;> rfl

end Sys2Proof
end

