-- ==== Sys2Proof/Laws/Numeral.lean ====
section
/-! SUPPORT. Numerals and byte strings: lengths, and reading a big-endian byte string back (rules R11, R43). -/

namespace Sys2Proof.Machine

@[simp] theorem numeral_length (b k v : Nat) : (numeral b k v).length = k := by
  induction k generalizing v with
  | zero => rfl
  | succ k ih => simp [numeral, ih]

@[simp] theorem bigEndianBytes_length (k v : Nat) : (bigEndianBytes k v).length = k := by
  induction k generalizing v with
  | zero => rfl
  | succ k ih => simp [bigEndianBytes, ih]

@[simp] theorem bitChars_length (n : Nat) (b : Bits) (i count : Nat) : (bitChars n b i count).length = count := by
  simp [bitChars]

theorem bigEndian_append_singleton (t : Text) (x : Byte) : bigEndian (t ++ [x]) = bigEndian t * 256 + x.toNat := by
  simp [bigEndian]

end Sys2Proof.Machine
end

