-- ==== Sys2Proof/Laws/PerInstr.lean ====
section
/-! SUPPORT. Every command's word carries its row's `match` under its row's `mask` (rule R64): one lemma per command. -/

namespace Sys2Proof.Laws.WordMatchesTable

open Sys2Proof Sys2Proof.Machine

/-- The command word selects the command's own row of the opcode table. -/
def Statement (i : Instr) : Prop := commandWord i &&& (tableRow i.opcode).2 = (tableRow i.opcode).1

/-- A word made of an opcode, eight reserved zeros and a 16-bit field (formats F and P, rules R57, R62). -/
theorem wideField (op : BitVec 8) (x : BitVec 16) (row : Word)
    (h : op ++ (0#8 ++ 0#16) = row) : (op ++ (0#8 ++ x) : Word) &&& 0xFFFF0000 = row := by
  subst h
  apply BitVec.eq_of_getLsbD_eq
  intro i hi
  have : i < 32 := hi
  rw [BitVec.getLsbD_and, BitVec.getLsbD_append, BitVec.getLsbD_append, BitVec.getLsbD_append, BitVec.getLsbD_append]
  interval_cases i <;> simp

theorem config (we wm : BitVec 8) : Statement (.config we wm) := by
  have h : (0#8 ++ we ++ wm : BitVec 24) = 0#8 ++ (we ++ wm) := by
    rw [BitVec.append_assoc]; rfl
  show (0x01#8 ++ (0#8 ++ we ++ wm : BitVec 24) : Word) &&& 0xFFFF0000 = 0x01000000
  rw [h]
  exact wideField 0x01 (we ++ wm) _ rfl

theorem rdfmt : Statement .rdfmt := rfl
theorem encode (text : Text) : Statement (.encode text) := wideField 0x03 _ _ rfl
theorem decode : Statement .decode := rfl
theorem ldbits (payload : Text) : Statement (.ldbits payload) := wideField 0x05 _ _ rfl
theorem rdbits : Statement .rdbits := rfl
theorem toggle (idx : BitVec 8) : Statement (.toggle idx) := by
  unfold Statement; revert idx; decide
theorem setrange (idx : BitVec 8) (v : Bool) : Statement (.setrange idx v) := by
  unfold Statement; revert idx v; decide
theorem setall (v : Bool) : Statement (.setall v) := by
  unfold Statement; revert v; decide
theorem invert : Statement .invert := rfl
theorem grouped : Statement .grouped := rfl
theorem hex : Statement .hex := rfl
theorem chars : Statement .chars := rfl
theorem rdstat : Statement .rdstat := rfl

end Sys2Proof.Laws.WordMatchesTable
end

