-- ==== Sys2Proof/Laws/Rational.lean ====
section
/-! SUPPORT. The machine's integer pairs as rationals: what scaling, `rnd` and `floorLog` compute over ℚ (rules R12,
R13). -/

namespace Sys2Proof.Machine

/-- The rational a pair stands for. -/
def Frac.toRat (x : Frac) : ℚ := (x.num : ℚ) / (x.den : ℚ)

theorem scaleBy_den_pos {b : Nat} (hb : 0 < b) (k : Int) {x : Frac} (hx : 0 < x.den) : 0 < (scaleBy b k x).den := by
  cases k with
  | ofNat n => exact hx
  | negSucc n => exact Nat.mul_pos hx (pow_pos hb _)

theorem scaleBy_toRat {b : Nat} (hb : 0 < b) (k : Int) (x : Frac) :
    (scaleBy b k x).toRat = x.toRat * (b : ℚ) ^ k := by
  have hb' : (b : ℚ) ≠ 0 := by exact_mod_cast hb.ne'
  cases k with
  | ofNat n => simp [scaleBy, Frac.toRat]; ring
  | negSucc n => simp [scaleBy, Frac.toRat, zpow_negSucc]; field_simp

theorem scaledInt_toRat {b : Nat} (hb : 0 < b) (m : Nat) (k : Int) :
    (scaledInt b m k).toRat = (m : ℚ) * (b : ℚ) ^ k := by
  rw [scaledInt, scaleBy_toRat hb]; simp [Frac.toRat]

theorem scaledInt_den_pos {b : Nat} (hb : 0 < b) (m : Nat) (k : Int) : 0 < (scaledInt b m k).den :=
  scaleBy_den_pos hb k Nat.one_pos

theorem subOne_toRat {x : Frac} (hx : 0 < x.den) (h1 : x.den ≤ x.num) : (subOne x).toRat = x.toRat - 1 := by
  have hx' : (x.den : ℚ) ≠ 0 := by exact_mod_cast hx.ne'
  simp only [subOne, Frac.toRat, Nat.cast_sub h1]
  field_simp

/-- `rnd` is `floor(x + 1/2)` (rule R13). -/
theorem rnd_eq_floor {x : Frac} (hx : 0 < x.den) : (rnd x : ℤ) = ⌊x.toRat + 1 / 2⌋ := by
  have hx' : (x.den : ℚ) ≠ 0 := by exact_mod_cast hx.ne'
  have h : x.toRat + 1 / 2 = ((2 * x.num + x.den : ℕ) : ℚ) / ((2 * x.den : ℕ) : ℚ) := by
    simp only [Frac.toRat]; push_cast; field_simp
  rw [h, Rat.floor_natCast_div_natCast]
  rfl

/-- `floorLog` brackets its argument: `b^e ≤ x < b^(e+1)` (rule R12). -/
theorem floorLog_bracket {b : Nat} (hb : 1 < b) {x : Frac} (hn : 0 < x.num) (hd : 0 < x.den) :
    (b : ℚ) ^ floorLog b x ≤ x.toRat ∧ x.toRat < (b : ℚ) ^ (floorLog b x + 1) := by
  have hb0 : 0 < b := by omega
  have hbq : (0 : ℚ) < b := by exact_mod_cast hb0
  have hdq : (0 : ℚ) < x.den := by exact_mod_cast hd
  set ln := Nat.log b x.num
  set ld := Nat.log b x.den
  have hn1 : ((b : ℚ) ^ (ln : ℤ)) ≤ x.num := by exact_mod_cast Nat.pow_log_le_self b hn.ne'
  have hn2 : (x.num : ℚ) < (b : ℚ) ^ ((ln : ℤ) + 1) := by exact_mod_cast Nat.lt_pow_succ_log_self hb x.num
  have hd1 : ((b : ℚ) ^ (ld : ℤ)) ≤ x.den := by exact_mod_cast Nat.pow_log_le_self b hd.ne'
  have hd2 : (x.den : ℚ) < (b : ℚ) ^ ((ld : ℤ) + 1) := by exact_mod_cast Nat.lt_pow_succ_log_self hb x.den
  have hlow : (b : ℚ) ^ ((ln : ℤ) - ld - 1) < x.toRat := by
    rw [Frac.toRat, lt_div_iff₀ hdq]
    calc (b : ℚ) ^ ((ln : ℤ) - ld - 1) * x.den < (b : ℚ) ^ ((ln : ℤ) - ld - 1) * (b : ℚ) ^ ((ld : ℤ) + 1) :=
          mul_lt_mul_of_pos_left hd2 (zpow_pos hbq _)
      _ = (b : ℚ) ^ (ln : ℤ) := by rw [← zpow_add₀ hbq.ne']; congr 1; ring
      _ ≤ x.num := hn1
  have hhigh : x.toRat < (b : ℚ) ^ ((ln : ℤ) - ld + 1) := by
    rw [Frac.toRat, div_lt_iff₀ hdq]
    calc (x.num : ℚ) < (b : ℚ) ^ ((ln : ℤ) + 1) := hn2
      _ = (b : ℚ) ^ ((ln : ℤ) - ld + 1) * (b : ℚ) ^ (ld : ℤ) := by rw [← zpow_add₀ hbq.ne']; congr 1; ring
      _ ≤ (b : ℚ) ^ ((ln : ℤ) - ld + 1) * x.den := mul_le_mul_of_nonneg_left hd1 (zpow_pos hbq _).le
  have hcmp : ((scaleBy b (-((ln : ℤ) - ld)) x).den ≤ (scaleBy b (-((ln : ℤ) - ld)) x).num)
      ↔ (b : ℚ) ^ ((ln : ℤ) - ld) ≤ x.toRat := by
    have hy := scaleBy_den_pos hb0 (-((ln : ℤ) - ld)) hd
    have hyq : (0 : ℚ) < (scaleBy b (-((ln : ℤ) - ld)) x).den := by exact_mod_cast hy
    have h1 : ((scaleBy b (-((ln : ℤ) - ld)) x).den ≤ (scaleBy b (-((ln : ℤ) - ld)) x).num)
        ↔ 1 ≤ (scaleBy b (-((ln : ℤ) - ld)) x).toRat := by
      rw [Frac.toRat, le_div_iff₀ hyq, one_mul, Nat.cast_le]
    rw [h1, scaleBy_toRat hb0, zpow_neg, ← div_eq_mul_inv, le_div_iff₀ (zpow_pos hbq _), one_mul]
  unfold floorLog
  simp only
  by_cases hc : (scaleBy b (-((ln : ℤ) - ld)) x).den ≤ (scaleBy b (-((ln : ℤ) - ld)) x).num
  · rw [if_pos hc]; exact ⟨hcmp.mp hc, hhigh⟩
  · rw [if_neg hc]
    refine ⟨hlow.le, ?_⟩
    have := not_le.mp (mt hcmp.mpr hc)
    simpa using this

end Sys2Proof.Machine
end

