-- ==== Sys2Proof/Laws/Text.lean ====
section
/-! SUPPORT. The lexer's and the layout's small functions said in the terms of the claims: letter case (rule R14), digit
strings (rule R106) and decimal numerals (rules R139, R142). -/

namespace Sys2Proof.Machine

theorem foldCase_eq_iff (b letter : Byte) (h : 0x61 ≤ letter.toNat ∧ letter.toNat ≤ 0x7A) :
    foldCase b = letter ↔ b = letter ∨ b = letter - 0x20 := by
  revert b letter
  decide +kernel

/-- A body folds to a lower-case word exactly when it is that word in some letter case. -/
theorem map_foldCase_eq_iff (body word : Text) (h : ∀ letter ∈ word, 0x61 ≤ letter.toNat ∧ letter.toNat ≤ 0x7A) :
    body.map foldCase = word ↔ InAnyCase body word := by
  induction body generalizing word with
  | nil => cases word <;> simp [InAnyCase]
  | cons b bs ih =>
    cases word with
    | nil => simp [InAnyCase]
    | cons letter rest =>
      simp only [List.map_cons, List.cons.injEq, InAnyCase, List.forall₂_cons]
      rw [foldCase_eq_iff b letter (h letter (by simp)), ih rest fun x hx => h x (by simp [hx])]

theorem digitsValue_eq_numeralValue (ds : Text) : digitsValue ds = numeralValue ds := by
  induction ds using List.reverseRecOn with
  | nil => rfl
  | append_singleton ds b ih =>
    simp only [digitsValue, numeralValue] at ih
    simp [digitsValue, numeralValue, Nat.ofDigits_cons, ih]
    ring

theorem digitChar_of_lt_ten (d : Nat) (h : d < 10) : digitChar d = BitVec.ofNat 8 (0x30 + d) := by
  simp [digitChar, h]

theorem decimalDigits_of_pos (n : Nat) (h : 0 < n) :
    decimalDigits n = decimalDigits (n / 10) ++ [digitChar (n % 10)] := by
  rw [digitChar_of_lt_ten _ (Nat.mod_lt _ (by decide))]
  simp [decimalDigits, Nat.digits_def' (by decide : 1 < 10) h]

/-- A `p`-digit number's zero-padded numeral is its decimal digits. -/
theorem numeral_eq_decimalDigits (p n : Nat) (hp : 0 < p) (low : 10 ^ (p - 1) ≤ n) (high : n < 10 ^ p) :
    numeral 10 p n = decimalDigits n := by
  induction p generalizing n with
  | zero => omega
  | succ k ih =>
    have pos : 0 < n := lt_of_lt_of_le (Nat.pow_pos (by decide)) low
    rw [numeral, decimalDigits_of_pos n pos]
    congr 1
    rcases Nat.eq_zero_or_pos k with rfl | hk
    · have : n / 10 = 0 := by omega
      rw [this]; rfl
    · obtain ⟨j, rfl⟩ := Nat.exists_eq_succ_of_ne_zero hk.ne'
      simp only [Nat.succ_eq_add_one, Nat.add_sub_cancel, pow_succ] at low high ih ⊢
      exact ih (n / 10) (by omega) (by omega) (by omega)

/-- The numeral of a positive number is its decimal digits. -/
theorem decimalNumeral_eq_decimalDigits (n : Nat) (h : 0 < n) : decimalNumeral n = decimalDigits n :=
  numeral_eq_decimalDigits _ n (Nat.succ_pos _) (Nat.pow_log_le_self 10 h.ne') (Nat.lt_pow_succ_log_self (by decide) n)

end Sys2Proof.Machine
end

