-- ==== Sys2Proof/Tests/Slice0.lean ====
section
/-! SUPPORT. Tests of the model, expected results taken from the spec's examples and vectors (`95_test_vectors.md`, S, V
and P numbers), and for every obligation with hypotheses a witness: a state and operands that meet them together. -/

namespace Sys2Proof.Tests

open Sys2Proof Sys2Proof.Machine

/-- binary32 (CONFIG 8, 23) holding the bit string `v`. -/
def b32 (v : Nat) : State := { State.reset with cfgv := true, expw := 8, manw := 23, bits := BitVec.ofNat 128 v }

/-- The smallest format (CONFIG 2, 2) holding the bit string `v`. -/
def tiny (v : Nat) : State := { State.reset with cfgv := true, expw := 2, manw := 2, bits := BitVec.ofNat 128 v }

/-- binary16 (CONFIG 5, 10) with a zero bit string. -/
def b16 : State := { State.reset with cfgv := true, expw := 5, manw := 10 }

/-- The unit after V9.3: unconfigured and halted by TOGGLE 0. -/
def halted : State := { State.reset with fault := true, fcause := 2, fcmd := 0x07000000 }

/-- A state with one host move waiting. -/
def withMove (s : State) (move : HostMove) : State := { s with pending := [move] }

/-- The state an outcome goes on in. -/
def nextOf : Host.Outcome State Fault Refusal → Option State
  | .next s => some s
  | .fault _ => none
  | .refused _ => none

/-- BITS after a command. -/
def bitsAfter (i : Instr) (s : State) : Option Bits := (nextOf (exec i s)).map fun t => t.bits

/-- The response a command gives. -/
def answerOf (i : Instr) (s : State) : Option Response := (nextOf (exec i s)).bind fun t => t.responses.getLast?

/-- The fault registers after a command. -/
def faultAfter (i : Instr) (s : State) : Option (Bool × BitVec 3 × Word) :=
  (nextOf (exec i s)).map fun t => (t.fault, t.fcause, t.fcmd)

/-- DECODE's fields of a response, as numbers and text. -/
def decodedOf : Option Response → Option ((BitVec 3 × Bool × Nat × Int) × (Nat × Int × Text))
  | some (.ok (.decoded d)) => some ((d.cls.code, d.sign, d.sig.toNat, d.exp2.toInt), (d.coef.toNat, d.exp10.toInt, d.text))
  | _ => none

/-! ## Well-formedness -/

theorem test_encode_text_too_long_for_LEN_refused : (Instr.encode (List.replicate 65536 0x31)).wellFormed = false := by
  rw [Instr.wellFormed, lenFits, List.length_replicate]; decide
theorem test_encode_text_of_65535_bytes_accepted : (Instr.encode (List.replicate 65535 0x31)).wellFormed = true := by
  rw [Instr.wellFormed, lenFits, List.length_replicate]; decide
theorem test_ldbits_payload_too_long_for_LEN_refused : (Instr.ldbits (List.replicate 65536 0)).wellFormed = false := by
  rw [Instr.wellFormed, lenFits, List.length_replicate]; decide

/-! ## Decoding: every command's word written out from `30_encoding.md` (R56 to R64, R69) -/

theorem test_decode_config : decode 0x01000817 [] = .ok (.config 8 23) := by decide
theorem test_decode_rdfmt : decode 0x02000000 [] = .ok .rdfmt := by decide
theorem test_decode_encode : decode 0x03000003 [0x31, 0x2E, 0x30] = .ok (.encode [0x31, 0x2E, 0x30]) := by decide
theorem test_decode_decode : decode 0x04000000 [] = .ok .decode := by decide
theorem test_decode_ldbits :
    decode 0x05000010 (List.replicate 15 0 ++ [1]) = .ok (.ldbits (List.replicate 15 0 ++ [1])) := by decide
theorem test_decode_rdbits : decode 0x06000000 [] = .ok .rdbits := by decide
theorem test_decode_toggle : decode 0x0700001F [] = .ok (.toggle 31) := by decide
theorem test_decode_setrange : decode 0x08000109 [] = .ok (.setrange 9 true) := by decide
theorem test_decode_setall : decode 0x09000100 [] = .ok (.setall true) := by decide
theorem test_decode_invert : decode 0x0A000000 [] = .ok .invert := by decide
theorem test_decode_grouped : decode 0x0B000000 [] = .ok .grouped := by decide
theorem test_decode_hex : decode 0x0C000000 [] = .ok .hex := by decide
theorem test_decode_chars : decode 0x0D000000 [] = .ok .chars := by decide
theorem test_decode_rdstat : decode 0x0E000000 [] = .ok .rdstat := by decide
/-- V9.4, V9.8, V9.10 to V9.13, V9.22. -/
theorem test_decode_rejects_by_name :
    decode 0x00000000 [] = .error .unknownOpcode ∧ decode 0x0F000000 [] = .error .unknownOpcode
      ∧ decode 0x07000100 [] = .error .reservedBit ∧ decode 0x09000001 [] = .error .reservedBit
      ∧ decode 0x08000309 [] = .error .reservedBit ∧ decode 0x01010817 [] = .error .reservedBit
      ∧ decode 0x04000000 [0] = .error .payloadLength ∧ decode 0x03000003 [0x31, 0x2E] = .error .payloadLength := by
  decide
theorem test_table_words :
    decodeTableWord 32 0x01000000 = some (.config 0 0) ∧ decodeTableWord 32 0x05000000 = some (.ldbits [])
      ∧ decodeTableWord 32 0x03000002 = some (.encode [0, 0]) ∧ decodeTableWord 40 0x3103000001 = some (.encode [0x31]) := by
  decide

/-! ## Commands -/

/-- V2.2. -/
theorem test_config_answers_constants :
    answerOf (.config 5 10) State.reset = some (.ok (.configured 15 (BitVec.ofInt 15 (-14)) 15 16 0)) := by decide
/-- V2.14: 18 is refused, never truncated to 2. -/
theorem test_config_bad_format : faultAfter (.config 18 23) (b32 1) = some (true, 3, 0x01001217) := by decide
/-- V2.15. -/
theorem test_rdfmt : answerOf .rdfmt b16 = some (.ok (.format 5 10 15 (BitVec.ofInt 15 (-14)) 15 16)) := by decide
/-- V3.6: 2^24 + 1 is a tie and goes up. -/
theorem test_encode_tie_goes_up : bitsAfter (.encode (ascii "16777217")) (b32 0) = some 0x4B800001 := by decide +kernel
/-- V9.17: INPUT_ERROR leaves BITS. -/
theorem test_encode_input_error :
    answerOf (.encode (ascii "abc")) (b32 7) = some .inputError ∧ bitsAfter (.encode (ascii "abc")) (b32 7) = some 7 := by
  decide +kernel
/-- P1, step 3. -/
theorem test_decode_minus_two_and_a_half :
    decodedOf (answerOf .decode (b32 0xC0200000))
      = some ((0, true, 10485760, -22), (25000000000000000, 0, ascii "-2.5000000000000000")) := by decide +kernel
/-- S4. -/
theorem test_decode_smallest_denormal :
    decodedOf (answerOf .decode (b32 1))
      = some ((1, false, 1, -149), (14012984643248171, -45, ascii "1.4012984643248171e-45")) := by decide +kernel
/-- V7.14. -/
theorem test_ldbits :
    bitsAfter (.ldbits (List.replicate 12 0 ++ [0x3F, 0x80, 0x00, 0x00])) (b32 0) = some 0x3F800000 := by decide +kernel
/-- V7.25. -/
theorem test_ldbits_bad_value :
    faultAfter (.ldbits (List.replicate 15 0 ++ [0x20])) (tiny 0) = some (true, 6, 0x05000010) := by decide +kernel
/-- V7.16. -/
theorem test_rdbits : answerOf .rdbits (b32 0xC07FFFFF) = some (.ok (.bits 0xC07FFFFF)) := by decide
/-- V7.2. -/
theorem test_toggle_sign : bitsAfter (.toggle 0) (b32 1) = some 0x80000001 := by decide
/-- V7.17. -/
theorem test_toggle_bad_index : faultAfter (.toggle 32) (b32 1) = some (true, 4, 0x07000020) := by decide
/-- V7.4. -/
theorem test_setrange_ones : bitsAfter (.setrange 9 true) (b32 1) = some 0x007FFFFF := by decide
/-- V7.6. -/
theorem test_setrange_zeros : bitsAfter (.setrange 9 false) (b32 0x7FFFFFFF) = some 0x7F800000 := by decide
/-- V7.20. -/
theorem test_setall : bitsAfter (.setall true) (tiny 0) = some 0x1F := by decide
/-- V7.8. -/
theorem test_invert : bitsAfter .invert (b32 0x7F000000) = some 0x80FFFFFF := by decide
/-- V8.5. -/
theorem test_grouped : answerOf .grouped (tiny 0x0A) = some (.ok (.text (ascii "0 10 10"))) := by decide
/-- V8.4. -/
theorem test_hex_pads_on_the_left : answerOf .hex (tiny 0x1F) = some (.ok (.text (ascii "1F"))) := by decide
/-- V8.10, EPS and MIND. -/
theorem test_chars :
    (epsilonOf 10).text = ascii "0.00097656250000000000" ∧ (minDenormalOf 5 10).text = ascii "5.9604644775390625e-8" := by
  decide +kernel
/-- V9.21. -/
theorem test_rdstat_when_halted : answerOf .rdstat halted = some (.ok (.status false true 2 0x07000000)) := by decide
/-- V6.4, V6.5: the decimal carry of rule R140. -/
theorem test_render_carry :
    render ⟨999999999999999995, 10 ^ 17⟩ 17 = (10000000000000000, 1)
      ∧ render ⟨99999999999999999499, 10 ^ 19⟩ 17 = (99999999999999999, 0) := by decide +kernel
/-- V3.10, V3.16, V3.25: the denormal carry, the Infinity threshold and underflow. -/
theorem test_encode_paths :
    encodeToken 8 23 (lex (ascii "1.1754943508222875e-38")) = some 0x00800000
      ∧ encodeToken 8 23 (lex (ascii "340282356779733661637539395458142568448")) = some 0x7F800000
      ∧ encodeToken 8 23 (lex (ascii "-1e-400")) = some 0x80000000 := by decide +kernel
/-- V3.100 to V3.129, some of each. -/
theorem test_lexer :
    lex (ascii "+.5e+1") = .number false 5 0 ∧ lex (ascii "1.e1") = .number false 1 1
      ∧ lex (ascii "-iNf") = .inf true ∧ lex (ascii "NaN") = .nan false ∧ lex (ascii "--1") = .error
      ∧ lex (ascii ".e1") = .error ∧ lex (ascii "1e") = .error ∧ lex (ascii "1 ") = .error := by decide +kernel
/-- A step runs the command placed as the next move. -/
theorem test_step_runs_fetched_word :
    (nextOf (step (State.reset.withFetchWord 32 0x01000817))).map (fun t => (t.cfgv, t.expw, t.manw))
      = some (true, 8, 23) := by decide

/-! ## Witnesses: the hypotheses of every obligation can be met together -/

theorem witness_DecodeInvertsEncode : (Instr.toggle 31).wellFormed = true ∧ (Instr.encode [0x31]).wellFormed = true := by
  decide
theorem witness_EncodeInvertsDecode : decode 0x08000109 [] = .ok (.setrange 9 true) := by decide
theorem witness_DecoderAcceptsExactlyTheTable :
    SelectsRow 0x03000001 [0x31] .encode ∧ ∀ op, ¬ SelectsRow 0x03000001 [] op := by
  refine ⟨by decide, fun op => ?_⟩
  cases op <;> decide
theorem witness_IllegalCommandFaults :
    (withMove (b32 0) (.command 0x0F000000 [])).fault = false ∧ (0x0F : Nat) ≤ (0x0F000000 : Word).toNat / 2 ^ 24
      ∧ ∀ op, ¬ SelectsRow 0x09000001 [] op := by
  refine ⟨by decide, by decide, fun op => ?_⟩
  cases op <;> decide
theorem witness_StepRunsTheDecodedCommand :
    (withMove (b32 0) (.command 0x0700001F [])).pending = [.command 0x0700001F []]
      ∧ decode 0x0700001F [] = .ok (.toggle 31) := by decide
theorem witness_IdleStepHoldsTheState : (b32 1).pending = [] := by decide
theorem witness_ResetStepClearsTheFlags : (withMove halted .reset).pending = [.reset] := by decide
theorem witness_EveryStepKeepsTheInvariant :
    (withMove (b32 1) (.command 0x07000020 [])).Inv
      ∧ (nextOf (step (withMove (b32 1) (.command 0x07000020 [])))).isSome = true := by decide
theorem witness_EveryReachableStateMeetsTheInvariant :
    ∃ t : State, Host.Core.run core 1 ({ State.reset with pending := [.command 0x01000817 []] } : State) = .next t
      ∧ t.cfgv = true := ⟨_, rfl, by decide⟩
theorem witness_HaltedUnitIgnoresCommands :
    halted.fault = true ∧ (withMove halted (.command 0x0E000000 [])).pending = [.command 0x0E000000 []]
      ∧ (withMove halted (.command 0x0E000001 [])).pending = [.command 0x0E000001 []]
      ∧ (withMove halted .reset).pending = [.reset] := by decide
theorem witness_UnconfiguredUnitFaults :
    State.reset.fault = false ∧ State.reset.cfgv = false ∧ (∀ we wm, Instr.decode ≠ .config we wm)
      ∧ Instr.decode ≠ .rdstat :=
  ⟨rfl, rfl, fun _ _ => Instr.noConfusion, Instr.noConfusion⟩
theorem witness_HaltedUnitStaysHalted :
    (withMove halted (.command 0 [])).fault = true ∧ (∀ m ∈ (withMove halted (.command 0 [])).pending, m ≠ HostMove.reset)
      ∧ ∃ t : State, Host.Core.run core 1 (withMove halted (.command 0 [])) = .next t :=
  ⟨rfl, by decide, _, rfl⟩
theorem witness_FlagsChangeOnlyAsStated :
    (∃ t, step (withMove State.reset (.command 0x01000817 [])) = .next t ∧ t.cfgv = true)
      ∧ (∃ t, step (withMove halted .reset) = .next t) := ⟨⟨_, rfl, by decide⟩, _, rfl⟩
theorem witness_FaultIsPrecise :
    ∃ t, step (withMove (b32 1) (.command 0x07000020 [])) = .next t ∧ t.responses = [.fault] := ⟨_, rfl, by decide⟩
theorem witness_FirstFaultWins :
    ∃ t, step (withMove (b32 1) (.command 0x07000020 [])) = .next t ∧ t.fcause ≠ (b32 1).fcause := ⟨_, rfl, by decide⟩
theorem witness_OnlyCompletedWritersWrite :
    (∃ t, step (withMove (b32 1) (.command 0x07000020 [])) = .next t ∧ ∀ d, t.responses ≠ [.ok d])
      ∧ decode 0x04000000 [] = .ok .decode
      ∧ Instr.decode.opcode ∉ [Opcode.config, .encode, .ldbits, .toggle, .setrange, .setall, .invert] :=
  ⟨⟨_, rfl, fun d h => by cases h⟩, by decide, by decide⟩
theorem witness_ConfigSetsTheFormat :
    State.reset.fault = false ∧ LegalWidths (2 : BitVec 8).toNat (2 : BitVec 8).toNat
      ∧ LegalWidths (15 : BitVec 8).toNat (112 : BitVec 8).toNat ∧ ¬ LegalWidths (16 : BitVec 8).toNat (23 : BitVec 8).toNat
      ∧ ¬ LegalWidths (8 : BitVec 8).toNat (113 : BitVec 8).toNat := by decide
theorem witness_RdfmtAnswersTheConstants : b16.Ready ∧ LegalWidths b16.we b16.wm := by decide
theorem witness_LdbitsWritesItsValue :
    (tiny 0).Ready ∧ (List.replicate 15 (0 : Byte)).length ≠ 16 ∧ (List.replicate 16 (0 : Byte)).length = 16
      ∧ 2 ^ (tiny 0).n ≤ (0x20 : Bits).toNat ∧ (0x1F : Bits).toNat < 2 ^ (tiny 0).n := by decide
theorem witness_RdbitsAnswersTheBits : (b32 0xFF800000).Working := by decide
theorem witness_ToggleInvertsOneBit :
    (b32 0).Ready ∧ (b32 0).n ≤ 128 ∧ (b32 0).n ≤ (32 : BitVec 8).toNat ∧ (31 : BitVec 8).toNat < (b32 0).n
      ∧ (0 : BitVec 8).toNat < (b32 0).n := by decide
theorem witness_SetrangeSetsTheTail :
    (b32 0).Ready ∧ (b32 0).n ≤ 128 ∧ (b32 0).n ≤ (32 : BitVec 8).toNat ∧ (31 : BitVec 8).toNat < (b32 0).n := by decide
theorem witness_SetallSetsEveryBit : (tiny 0).Ready ∧ (tiny 0).n ≤ 128 := by decide
theorem witness_InvertComplementsEveryBit : (b32 0x3F800000).Working := by decide
theorem witness_GroupedShowsTheFields : (tiny 0x0A).Ready ∧ (4 : Nat) < (tiny 0x0A).n := by decide
theorem witness_HexShowsTheNumber : (tiny 0x1F).Working := by decide
theorem witness_CharsGivesTheCharacteristics : b16.Ready ∧ LegalWidths b16.we b16.wm := by decide
theorem witness_EncodeWritesItsToken :
    (b32 0).Ready ∧ LegalWidths (b32 0).we (b32 0).wm ∧ (ascii "1.0").length ≤ Config.textMax
      ∧ lex (ascii "1.0") = .number false 10 (-1) ∧ lex (ascii "-inf") = .inf true ∧ lex (ascii "nan") = .nan false
      ∧ lex (ascii "abc") = .error := by decide +kernel
theorem witness_EncodeTooLongFaults :
    (b32 0).Ready ∧ Config.textMax < (List.replicate 65536 (0x31 : Byte)).length := by
  refine ⟨by decide, ?_⟩
  rw [List.length_replicate, Config.textMax]
  have := Config.textMaxExcess.isLt
  omega
theorem witness_DecodeNamesInfinityNanZero :
    (b32 0).Ready ∧ LegalWidths (b32 0).we (b32 0).wm
      ∧ (b32 0x7F800000).bits.toNat / 2 ^ 23 % 2 ^ 8 = 2 ^ 8 - 1 ∧ (b32 0x7F800000).bits.toNat % 2 ^ 23 = 0
      ∧ (b32 0x7F800001).bits.toNat % 2 ^ 23 ≠ 0 ∧ (b32 0x80000000).bits.toNat / 2 ^ 23 % 2 ^ 8 = 0 := by decide
theorem witness_DecodeGivesFiniteValues :
    (b32 1).Ready ∧ LegalWidths (b32 1).we (b32 1).wm ∧ (b32 1).bits.toNat / 2 ^ 23 % 2 ^ 8 ≠ 2 ^ 8 - 1
      ∧ (b32 1).bits.toNat % 2 ^ 23 ≠ 0 ∧ (b32 0x3F800000).bits.toNat / 2 ^ 23 % 2 ^ 8 ≠ 0
      ∧ (b32 0x3F800000).bits.toNat / 2 ^ 23 % 2 ^ 8 ≠ 2 ^ 8 - 1 := by decide
/-- For the statements over all legal formats and decimal numbers: EncoderFollowsTheExactRule, EncodedValueIsNearest,
EncoderThresholds, EncodeSignSymmetry, TokensKeepTheirClass, DecodeTextSignAndLength, DecodeFieldsStayInRange, ClassCounts
and ExtremePatternValues. -/
theorem witness_legal_format_and_number : LegalWidths 2 2 ∧ LegalWidths 15 112 ∧ 0 < 1 := by decide
/-- EncoderThresholds: a number in each of the three ranges, at the boundaries of the smallest format (V3.41, V3.42,
V3.53, V3.54). -/
theorem witness_EncoderThresholds :
    encodedMagnitude 2 2 124999 (-6) = 0 ∧ encodedMagnitude 2 2 125 (-3) = 1
      ∧ encodedMagnitude 2 2 3749999 (-6) = 11 ∧ encodedMagnitude 2 2 375 (-2) = (2 ^ 2 - 1) * 2 ^ 2 := by decide +kernel
theorem witness_EncodeInvertsTheValue :
    LegalWidths 2 2 ∧ (0x1B : Bits).toNat < 2 ^ totalBits 2 2 ∧ classOf 2 2 0x1B = .normal ∧ classOf 2 2 0x13 = .denormal
      ∧ decimal 35 (-1) = decodedMagnitude 2 2 0x1B := by
  refine ⟨by decide, by decide, by decide, by decide, ?_⟩
  have h1 : (decodeBits 2 2 0x1B).sig = 7 := by decide +kernel
  have h2 : (decodeBits 2 2 0x1B).exp2 = BitVec.ofInt 16 (-1) := by decide +kernel
  have h3 : (BitVec.ofInt 16 (-1)).toInt = -1 := by decide
  have h4 : (7 : BitVec 113).toNat = 7 := by decide
  rw [decodedMagnitude, h1, h2, h3, h4, decimal, dyadic]
  norm_num
theorem witness_EncodeIsMonotone : LegalWidths 2 2 ∧ decimal 1 0 ≤ decimal 15 (-1) := by
  refine ⟨by decide, ?_⟩
  simp only [decimal]
  norm_num
theorem witness_LexerReadsExactlyTheGrammar : SignedText (ascii "-1") true (ascii "1") ∧ NumberText (ascii "1") 1 0 :=
  ⟨.inl ⟨rfl, by decide⟩, .integer [0x31] [] 0 (by decide) (by decide) .absent⟩
theorem witness_LexerReadsTheTokens :
    SignedText (ascii "+Inf") false (ascii "Inf") ∧ InAnyCase (ascii "Inf") wordInf
      ∧ InAnyCase (ascii "INFINITY") wordInfinity ∧ InAnyCase (ascii "nAn") wordNan ∧ ¬ InAnyCase (ascii "in") wordInf
      ∧ ¬ InAnyCase [0x49, 0x2E, 0x46] wordInf := by decide +kernel
theorem witness_EveryOtherTextIsAnError : (0x80 : Byte) ∈ ([0x80] : Text) ∧ 0x80 ≤ (0x80 : Byte).toNat := by decide
theorem witness_RendererFollowsTheExactRule : 0 < (⟨1, 1024⟩ : Frac).num ∧ 0 < (⟨1, 1024⟩ : Frac).den := by decide
/-- Coefficients of 17 and 30 digits; the text forms meet at x10 = −7, −6, −1, 0, P − 2, P − 1 and P, and each value
falls under one clause of `LayoutText`. -/
theorem witness_LayoutReadsBack :
    10 ^ (17 - 1) ≤ 12345678901234567 ∧ 12345678901234567 < 10 ^ 17 ∧ 10 ^ (30 - 1) ≤ 10 ^ 29 ∧ 10 ^ 29 < 10 ^ 30
      ∧ LayoutText true 12345678901234567 (-7) 17 (ascii "-1.2345678901234567e-7")
      ∧ LayoutText false 12345678901234567 (-6) 17 (ascii "0.0000012345678901234567")
      ∧ LayoutText true 12345678901234567 (-1) 17 (ascii "-0.12345678901234567")
      ∧ LayoutText false 12345678901234567 0 17 (ascii "1.2345678901234567")
      ∧ LayoutText false 12345678901234567 15 17 (ascii "1234567890123456.7")
      ∧ LayoutText true 12345678901234567 16 17 (ascii "-12345678901234567")
      ∧ LayoutText false 12345678901234567 17 17 (ascii "1.2345678901234567e+17") := by
  refine ⟨?_, ?_, ?_, ?_, ?_, ?_, ?_, ?_, ?_, ?_, ?_⟩ <;> decide +kernel
/-- The same seven boundaries by the machine's layout, written out from rules R141 and R142. -/
theorem test_layout_boundaries :
    layout true 12345678901234567 (-7) 17 = ascii "-1.2345678901234567e-7"
      ∧ layout false 12345678901234567 (-6) 17 = ascii "0.0000012345678901234567"
      ∧ layout true 12345678901234567 (-1) 17 = ascii "-0.12345678901234567"
      ∧ layout false 12345678901234567 0 17 = ascii "1.2345678901234567"
      ∧ layout false 12345678901234567 15 17 = ascii "1234567890123456.7"
      ∧ layout true 12345678901234567 16 17 = ascii "-12345678901234567"
      ∧ layout false 12345678901234567 17 17 = ascii "1.2345678901234567e+17" := by decide +kernel
theorem witness_BitOperationAlgebra :
    (5 : Nat) ≤ 128 ∧ 0 < 5 ∧ 4 < 5 ∧ (0x1F : Bits).toNat < 2 ^ 5 ∧ (0 : Bits).toNat < 2 ^ 5 := by decide
theorem witness_LoadedBitsReadBack : (tiny 0).Ready ∧ (0x1F : Bits).toNat < 2 ^ (tiny 0).n := by decide
theorem witness_FiniteValuesIncrease : LegalWidths 2 2 ∧ 0 < 1 ∧ 11 < (2 ^ 2 - 1) * 2 ^ 2 := by decide
theorem witness_UnconfiguredRegistersAreUnobservable :
    State.reset.cfgv = false ∧ State.reset.SameFaults { State.reset with expw := 8, bits := 7 }
      ∧ ∃ t : State, Host.Core.run core 1 (withMove State.reset (.command 0x01000817 [])) = .next t ∧ t.cfgv = true :=
  ⟨rfl, by decide, _, rfl, by decide⟩
theorem witness_ResponseDependsOnRegistersAlone :
    (b32 1).SameCodec (withMove (b32 1) .reset) ∧ (b32 1).SameFaults (withMove (b32 1) .reset)
      ∧ ∃ t, step (withMove (b32 1) .reset) = .next t := ⟨by decide, by decide, _, rfl⟩
theorem witness_ReadersChangeNothing :
    (b32 1).Ready ∧ Instr.hex ∈ [Instr.decode, .rdbits, .rdfmt, .rdstat, .grouped, .hex, .chars] := by decide
theorem witness_EncodeAndCharsIgnoreTheBits :
    (∃ u, exec (.encode (ascii "1.0")) (b32 1) = .next u) ∧ ∃ u, exec .chars (b32 1) = .next u := ⟨⟨_, rfl⟩, _, rfl⟩

end Sys2Proof.Tests
end

section
/-! PROOFS. The shared steps of a command in a ready state, and the claims on TOGGLE and SETRANGE (rules R153 to R156).
Indices count from the sign (rule R9), register positions from bit 0 (rule R23). -/

namespace Sys2Proof.Machine

/-! The dispatcher's arms for the two commands. -/

theorem exec_toggle (idx : BitVec 8) (s : State) : exec (.toggle idx) s = execToggle idx s := rfl

theorem exec_setrange (idx : BitVec 8) (v : Bool) (s : State) : exec (.setrange idx v) s = execSetrange idx v s := rfl

/-! TOGGLE and SETRANGE in a ready state. -/

theorem execToggle_badIndex {idx : BitVec 8} {s : State} (ready : s.Ready) (h : s.n ≤ idx.toNat) :
    execToggle idx s = .next (raiseFault .badIndex (commandWord (.toggle idx)) s) := by
  obtain ⟨live, configured⟩ := ready
  rw [execToggle, whenReady_ready _ _ _ live configured, if_pos h]

theorem execToggle_writes {idx : BitVec 8} {s : State} (ready : s.Ready) (h : idx.toNat < s.n) :
    execToggle idx s = .next (writeBits (toggledBits s.n idx.toNat s.bits) s) := by
  obtain ⟨live, configured⟩ := ready
  rw [execToggle, whenReady_ready _ _ _ live configured, if_neg (Nat.not_le.mpr h)]

theorem execSetrange_badIndex {idx : BitVec 8} {v : Bool} {s : State} (ready : s.Ready) (h : s.n ≤ idx.toNat) :
    execSetrange idx v s = .next (raiseFault .badIndex (commandWord (.setrange idx v)) s) := by
  obtain ⟨live, configured⟩ := ready
  rw [execSetrange, whenReady_ready _ _ _ live configured, if_pos h]

theorem execSetrange_writes {idx : BitVec 8} {v : Bool} {s : State} (ready : s.Ready) (h : idx.toNat < s.n) :
    execSetrange idx v s = .next (writeBits (rangeSetBits s.n idx.toNat v s.bits) s) := by
  obtain ⟨live, configured⟩ := ready
  rw [execSetrange, whenReady_ready _ _ _ live configured, if_neg (Nat.not_le.mpr h)]

/-! The bits of the masks and of the new bit strings. -/

/-- The mask of index `i` has the one bit `n − 1 − i` (rule R153). -/
theorem indexMask_getLsbD {n i : Nat} (width : n ≤ 128) (h : i < n) (k : Nat) :
    (indexMask n i).getLsbD k = decide (k = n - 1 - i) := by
  rw [indexMask, BitVec.getLsbD_ofNat, Nat.testBit_two_pow, Bool.eq_iff_iff]
  simp only [Bool.and_eq_true, decide_eq_true_eq]
  omega

/-- The mask `2^m − 1` has exactly the bits below `m`. -/
theorem lowOnes_getLsbD {m : Nat} (width : m ≤ 128) (k : Nat) : (lowOnes m).getLsbD k = decide (k < m) := by
  rw [lowOnes, BitVec.getLsbD_ofNat, Nat.testBit_two_pow_sub_one, Bool.eq_iff_iff]
  simp only [Bool.and_eq_true, decide_eq_true_eq]
  omega

/-- TOGGLE inverts register bit `n − 1 − i` and keeps the others. -/
theorem toggledBits_getLsbD {n i : Nat} (width : n ≤ 128) (h : i < n) (b : Bits) (k : Nat) :
    (toggledBits n i b).getLsbD k = if k = n - 1 - i then !b.getLsbD k else b.getLsbD k := by
  rw [toggledBits, BitVec.getLsbD_xor, indexMask_getLsbD width h]
  by_cases hk : k = n - 1 - i <;> simp [hk]

/-- SETRANGE sets the register bits below `n − i` and keeps the others. -/
theorem rangeSetBits_getLsbD {n : Nat} (width : n ≤ 128) (i : Nat) (v : Bool) (b : Bits) (k : Nat) :
    (rangeSetBits n i v b).getLsbD k = if k < n - i then v else b.getLsbD k := by
  have mask := lowOnes_getLsbD (m := n - i) (by omega) k
  rw [rangeSetBits, BitVec.getLsbD_or, BitVec.getLsbD_and, BitVec.getLsbD_not, mask]
  by_cases inRange : k < n - i
  · have : k < 128 := by omega
    cases v <;> simp [inRange, mask]
  · have keeps : (decide (k < 128) && b.getLsbD k) = b.getLsbD k := by
      by_cases hk : k < 128
      · simp [hk]
      · simp [BitVec.getLsbD_of_ge b k (by omega)]
    cases v <;> simp [inRange, mask, Bool.and_comm (b.getLsbD k), keeps]

/-- Settles O26. The bit of index `j` stands at register position `n − 1 − j`, so below `n` two indices name one position
only when they are equal. -/
theorem toggleInvertsOneBit : Obligations.ToggleInvertsOneBit := by
  intro idx s ready width
  refine ⟨fun bad => ?_, fun good => ⟨toggledBits s.n idx.toNat s.bits, fun j hj => ?_, fun k hk => ?_, ?_⟩⟩
  · exact (exec_toggle idx s).trans (execToggle_badIndex ready bad)
  · have same : s.n - 1 - j = s.n - 1 - idx.toNat ↔ j = idx.toNat := by omega
    rw [toggledBits_getLsbD width good]
    simp only [same]
  · rw [toggledBits_getLsbD width good, if_neg (by omega)]
  · exact (exec_toggle idx s).trans (execToggle_writes ready good)

/-- Settles O27. Index `j` stands at register position `n − 1 − j`, which is below `n − IDX` exactly from `j = IDX` on. -/
theorem setrangeSetsTheTail : Obligations.SetrangeSetsTheTail := by
  intro idx v s ready width
  refine ⟨fun bad => ?_, fun good => ⟨rangeSetBits s.n idx.toNat v s.bits, fun j hj => ?_, fun k hk => ?_, ?_⟩⟩
  · exact (exec_setrange idx v s).trans (execSetrange_badIndex ready bad)
  · have tail : s.n - 1 - j < s.n - idx.toNat ↔ idx.toNat ≤ j := by omega
    rw [rangeSetBits_getLsbD width]
    simp only [tail]
  · rw [rangeSetBits_getLsbD width, if_neg (by omega)]
  · exact (exec_setrange idx v s).trans (execSetrange_writes ready good)

end Sys2Proof.Machine
end

section
/-! PROOFS. The lexer's sign and its word tokens (rules R14, R102 to R104). -/

namespace Sys2Proof.Machine

/-- What `splitSign` strips is a sign in the sense of rule R102. -/
theorem signedText_splitSign (text : Text) : SignedText text (splitSign text).1 (splitSign text).2 := by
  cases text with
  | nil => exact .inr (.inr ⟨rfl, rfl, by simp [splitSign], by simp [splitSign]⟩)
  | cons b rest =>
    rw [splitSign]
    split_ifs with minus plus
    · exact .inl ⟨rfl, by rw [minus]⟩
    · exact .inr (.inl ⟨rfl, by rw [plus]⟩)
    · exact .inr (.inr ⟨rfl, rfl, by simpa using minus, by simpa using plus⟩)

/-- A text has one reading as a sign and a body, and `splitSign` finds it (rule R102). -/
theorem signedText_iff {text body : Text} {s : Bool} : SignedText text s body ↔ splitSign text = (s, body) := by
  refine ⟨fun signed => ?_, fun split => ?_⟩
  · obtain ⟨rfl, rfl⟩ | ⟨rfl, rfl⟩ | ⟨rfl, rfl, notMinus, notPlus⟩ := signed
    · rfl
    · rfl
    · cases text with
      | nil => rfl
      | cons b rest =>
        have minus : b ≠ 0x2D := by simpa using notMinus
        have plus : b ≠ 0x2B := by simpa using notPlus
        rw [splitSign, if_neg minus, if_neg plus]
  · simpa only [split] using signedText_splitSign text

/-- A claim about the body after a sign is a claim about what `splitSign` returns. -/
theorem exists_signedText_iff {text : Text} {s : Bool} {P : Text → Prop} :
    (∃ body, SignedText text s body ∧ P body) ↔ (splitSign text).1 = s ∧ P (splitSign text).2 := by
  simp only [signedText_iff, Prod.ext_iff]
  refine ⟨fun ⟨_, ⟨sign, rest⟩, holds⟩ => ⟨sign, rest ▸ holds⟩, fun ⟨sign, holds⟩ => ⟨_, ⟨sign, rfl⟩, holds⟩⟩

/-- The number reader answers a number or an error, never a word token. -/
theorem readNumber_cases (s : Bool) (body : Text) :
    readNumber s body = .error ∨ ∃ coef x, readNumber s body = .number s coef x := by
  rw [readNumber]
  split
  · exact .inl rfl
  · split
    · exact .inl rfl
    · exact .inr ⟨_, _, rfl⟩

/-! Folding a body onto one of the words (rule R14). -/

theorem fold_eq_inf_iff (body : Text) : body.map foldCase = ascii "inf" ↔ InAnyCase body wordInf :=
  map_foldCase_eq_iff body wordInf (by decide)

theorem fold_eq_infinity_iff (body : Text) : body.map foldCase = ascii "infinity" ↔ InAnyCase body wordInfinity :=
  map_foldCase_eq_iff body wordInfinity (by decide)

theorem fold_eq_nan_iff (body : Text) : body.map foldCase = ascii "nan" ↔ InAnyCase body wordNan :=
  map_foldCase_eq_iff body wordNan (by decide)

/-- The lexer's three branches, with the word tests in the terms of rule R14. -/
theorem lex_eq (text : Text) :
    lex text = if InAnyCase (splitSign text).2 wordInf ∨ InAnyCase (splitSign text).2 wordInfinity
      then .inf (splitSign text).1
      else if InAnyCase (splitSign text).2 wordNan then .nan (splitSign text).1
      else readNumber (splitSign text).1 (splitSign text).2 := by
  simp only [lex, fold_eq_inf_iff, fold_eq_infinity_iff, fold_eq_nan_iff]

/-- The words of an infinity and of a NaN differ in their first letter. -/
theorem not_infinityWord_of_nan {body : Text} (nan : InAnyCase body wordNan) :
    ¬ (InAnyCase body wordInf ∨ InAnyCase body wordInfinity) := by
  rw [← fold_eq_inf_iff, ← fold_eq_infinity_iff, (fold_eq_nan_iff body).mpr nan]
  decide

theorem lex_eq_inf_iff (text : Text) (s : Bool) :
    lex text = .inf s ↔ (splitSign text).1 = s
      ∧ (InAnyCase (splitSign text).2 wordInf ∨ InAnyCase (splitSign text).2 wordInfinity) := by
  rw [lex_eq]
  split_ifs with infinity nan
  · simp [infinity]
  · simp [infinity]
  · obtain error | ⟨coef, x, number⟩ := readNumber_cases (splitSign text).1 (splitSign text).2
    · simp [error, infinity]
    · simp [number, infinity]

theorem lex_eq_nan_iff (text : Text) (s : Bool) :
    lex text = .nan s ↔ (splitSign text).1 = s ∧ InAnyCase (splitSign text).2 wordNan := by
  rw [lex_eq]
  split_ifs with infinity nan
  · simp [mt not_infinityWord_of_nan (not_not.mpr infinity)]
  · simp [nan]
  · obtain error | ⟨coef, x, number⟩ := readNumber_cases (splitSign text).1 (splitSign text).2
    · simp [error, nan]
    · simp [number, nan]

/-- Settles O46: the body after the sign is unique, and each word test of the lexer is `InAnyCase` of that word. -/
theorem lexerReadsTheTokens : Obligations.LexerReadsTheTokens := by
  intro text s
  rw [exists_signedText_iff, exists_signedText_iff]
  exact ⟨lex_eq_inf_iff text s, lex_eq_nan_iff text s⟩

end Sys2Proof.Machine
end

section
/-! PROOFS. The integer encoder against rule R119 over ℚ, and the bounds of rule R210. -/

namespace Sys2Proof.Machine

/-! The model's constants and patterns as integers (rules R80 to R84, R89, R118). -/

theorem bias_cast (we : Nat) : (bias we : ℤ) = 2 ^ (we - 1) - 1 := by
  rw [bias, Nat.cast_sub Nat.one_le_two_pow]
  norm_num

theorem eOnes_cast (we : Nat) : (eOnes we : ℤ) = 2 ^ we - 1 := by
  rw [eOnes, Nat.cast_sub Nat.one_le_two_pow]
  norm_num

theorem emax_eq_bias {we : Nat} (h : 1 ≤ we) : emax we = bias we := by
  obtain ⟨k, rfl⟩ := Nat.exists_eq_add_of_le' h
  rw [emax, bias_cast, Nat.add_sub_cancel, pow_succ]
  ring

theorem bias_le {we : Nat} (h : we ≤ 15) : bias we ≤ 16383 :=
  Nat.sub_le_sub_right (Nat.pow_le_pow_right (n := 2) (i := we - 1) (j := 14) (by decide) (by omega)) 1

theorem one_le_bias {we : Nat} (h : 2 ≤ we) : 1 ≤ bias we :=
  Nat.sub_le_sub_right (Nat.pow_le_pow_right (n := 2) (i := 1) (j := we - 1) (by decide) (by omega)) 1

theorem packFields_cast (we wm : Nat) (s : Bool) (ef mf : Nat) :
    (packFields we wm s ef mf : ℤ) = (if s then 2 ^ (we + wm) else 0) + ef * 2 ^ wm + mf := by
  cases s <;> simp [packFields]

theorem patZero_cast (we wm : Nat) (s : Bool) : (patZero we wm s : ℤ) = if s then 2 ^ (we + wm) else 0 := by
  simp [patZero, packFields_cast]

theorem patInf_cast (we wm : Nat) (s : Bool) :
    (patInf we wm s : ℤ) = (if s then 2 ^ (we + wm) else 0) + (2 ^ we - 1) * 2 ^ wm := by
  simp [patInf, packFields_cast, eOnes_cast]

theorem assembleFields_cast (we wm : Nat) (s : Bool) (ef mRaw : Nat) :
    (assembleFields we wm s ef mRaw : ℤ) = assembleQ we wm s ef mRaw := by
  have carry : mRaw = 2 ^ wm ↔ (mRaw : ℤ) = 2 ^ wm := by norm_cast
  have top : ef + 1 = eOnes we ↔ (ef : ℤ) + 1 = 2 ^ we - 1 := by rw [← eOnes_cast]; norm_cast
  simp only [assembleFields, assembleQ, carry, top]
  split_ifs <;> simp [packFields_cast, patInf_cast, *]

/-- `EncodeValue` over ℚ in the model's own constants and patterns (rule R119). -/
theorem encodeQ_eq (we wm : Nat) (s : Bool) (d : ℚ) :
    encodeQ we wm s d =
      if d = 0 then (patZero we wm s : ℤ)
      else if Int.log 2 d < emin we then
        if roundQ (d * 2 ^ ((wm : ℤ) - emin we)) = 0 then (patZero we wm s : ℤ)
        else assembleQ we wm s 0 (roundQ (d * 2 ^ ((wm : ℤ) - emin we)))
      else if emax we < Int.log 2 d then (patInf we wm s : ℤ)
      else assembleQ we wm s (Int.log 2 d + bias we) (roundQ ((d / 2 ^ Int.log 2 d - 1) * 2 ^ wm)) := by
  simp only [encodeQ, emin, emax, bias_cast, patZero_cast, patInf_cast]

/-! The machine's steps on a pair, over ℚ (rules R12, R112, R115). -/

theorem toRat_eq_zero_iff {x : Frac} (hx : 0 < x.den) : x.toRat = 0 ↔ x.num = 0 := by
  simp [Frac.toRat, hx.ne']

theorem floorLog_eq_log {b : Nat} (hb : 1 < b) {x : Frac} (hn : 0 < x.num) (hd : 0 < x.den) :
    floorLog b x = Int.log b x.toRat := by
  obtain ⟨low, high⟩ := floorLog_bracket hb hn hd
  have pos : 0 < x.toRat := div_pos (by exact_mod_cast hn) (by exact_mod_cast hd)
  have lower := (Int.zpow_le_iff_le_log hb pos).mp low
  have upper := (Int.lt_zpow_iff_log_lt hb pos).mp high
  omega

theorem denormalMantissa_cast (we wm : Nat) {d : Frac} (hd : 0 < d.den) :
    (denormalMantissa we wm d : ℤ) = roundQ (d.toRat * 2 ^ ((wm : ℤ) - emin we)) := by
  rw [denormalMantissa, rnd_eq_floor (scaleBy_den_pos two_pos _ hd), scaleBy_toRat two_pos]
  rfl

theorem normalMantissa_cast (wm : Nat) (e : ℤ) {d : Frac} (hd : 0 < d.den) (low : (2 : ℚ) ^ e ≤ d.toRat) :
    (normalMantissa wm e d : ℤ) = roundQ ((d.toRat / 2 ^ e - 1) * 2 ^ wm) := by
  have den := scaleBy_den_pos two_pos (-e) hd
  have scaled : (scaleBy 2 (-e) d).toRat = d.toRat / 2 ^ e := by
    rw [scaleBy_toRat two_pos, zpow_neg, div_eq_mul_inv]; norm_cast
  have one_le : (scaleBy 2 (-e) d).den ≤ (scaleBy 2 (-e) d).num := by
    have : 1 ≤ (scaleBy 2 (-e) d).toRat := by rwa [scaled, one_le_div (zpow_pos two_pos e)]
    rwa [Frac.toRat, one_le_div (by exact_mod_cast den), Nat.cast_le] at this
  rw [normalMantissa, rnd_eq_floor (scaleBy_den_pos two_pos wm (x := subOne (scaleBy 2 (-e) d)) den), scaleBy_toRat two_pos,
    subOne_toRat den one_le, scaled, zpow_natCast]
  rfl

/-- Without the bounds of rule R210: the integer encoder is `EncodeValue` of the rational its pair stands for. -/
theorem encodeValue_cast (we wm : Nat) (s : Bool) {d : Frac} (hd : 0 < d.den) :
    (encodeValue we wm s d : ℤ) = encodeQ we wm s d.toRat := by
  rw [encodeQ_eq]
  by_cases zero : d.num = 0
  · rw [encodeValue, if_pos zero, if_pos ((toRat_eq_zero_iff hd).mpr zero)]
  have num_pos : 0 < d.num := Nat.pos_of_ne_zero zero
  have log := floorLog_eq_log one_lt_two num_pos hd
  have low : (2 : ℚ) ^ Int.log 2 d.toRat ≤ d.toRat := log ▸ (floorLog_bracket one_lt_two num_pos hd).1
  simp only [encodeValue, if_neg zero, if_neg (mt (toRat_eq_zero_iff hd).mp zero), log]
  by_cases denormal : Int.log 2 d.toRat < emin we
  · rw [if_pos denormal, if_pos denormal, ← denormalMantissa_cast we wm hd]
    simp only [Nat.cast_eq_zero]
    split_ifs
    · rfl
    · exact assembleFields_cast we wm s 0 _
  rw [if_neg denormal, if_neg denormal]
  by_cases overflow : emax we < Int.log 2 d.toRat
  · rw [if_pos overflow, if_pos overflow]
  · have field : ((Int.log 2 d.toRat + bias we).toNat : ℤ) = Int.log 2 d.toRat + bias we := by
      rw [emin] at denormal; omega
    rw [if_neg overflow, if_neg overflow, assembleFields_cast, field, normalMantissa_cast wm _ hd low]

/-! The bounds of rule R210 over ℚ. -/

/-- Above the largest exponent `EncodeValue` is Infinity. -/
theorem encodeQ_of_ge {we wm : Nat} (widths : LegalWidths we wm) (s : Bool) {d : ℚ} (h : 2 ^ (emax we + 1) ≤ d) :
    encodeQ we wm s d = patInf we wm s := by
  obtain ⟨we_ge, -⟩ := widths
  have pos : 0 < d := lt_of_lt_of_le (zpow_pos two_pos _) h
  have log : emax we + 1 ≤ Int.log 2 d := (Int.zpow_le_iff_le_log one_lt_two pos).mp (by exact_mod_cast h)
  have bias_pos := one_le_bias we_ge
  have notDenormal : ¬ Int.log 2 d < emin we := by
    rw [emax_eq_bias (by omega)] at log; rw [emin]; omega
  rw [encodeQ_eq, if_neg pos.ne', if_neg notDenormal, if_pos (by omega)]

/-- Below half the smallest denormal `EncodeValue` is zero. -/
theorem encodeQ_of_lt (we wm : Nat) (s : Bool) {d : ℚ} (nonneg : 0 ≤ d) (h : d < 2 ^ (emin we - wm - 1)) :
    encodeQ we wm s d = patZero we wm s := by
  rcases nonneg.eq_or_lt with zero | pos
  · rw [encodeQ_eq, if_pos zero.symm]
  have log : Int.log 2 d < emin we - wm - 1 := (Int.lt_zpow_iff_log_lt one_lt_two pos).mp (by exact_mod_cast h)
  have half : d * 2 ^ ((wm : ℤ) - emin we) < 1 / 2 := by
    calc d * 2 ^ ((wm : ℤ) - emin we)
        < 2 ^ (emin we - wm - 1) * 2 ^ ((wm : ℤ) - emin we) := mul_lt_mul_of_pos_right h (zpow_pos two_pos _)
      _ = 2 ^ (-1 : ℤ) := by rw [← zpow_add₀ two_ne_zero]; congr 1; ring
      _ = 1 / 2 := by norm_num
  have roundsToZero : roundQ (d * 2 ^ ((wm : ℤ) - emin we)) = 0 := by
    have scaled_nonneg : 0 ≤ d * 2 ^ ((wm : ℤ) - emin we) := mul_nonneg nonneg (zpow_pos two_pos _).le
    rw [roundQ, Int.floor_eq_zero_iff, Set.mem_Ico]
    constructor <;> linarith
  rw [encodeQ_eq, if_neg pos.ne', if_pos (by omega), if_pos roundsToZero]

/-- A decimal number lies in the decade of its first digit. -/
theorem decimal_decade {coef : Nat} (h : coef ≠ 0) (x : ℤ) :
    (10 : ℚ) ^ ((Nat.log 10 coef : ℤ) + x) ≤ decimal coef x
      ∧ decimal coef x < (10 : ℚ) ^ ((Nat.log 10 coef : ℤ) + 1 + x) := by
  have scale : (0 : ℚ) < 10 ^ x := zpow_pos (by norm_num) x
  have low : (10 : ℚ) ^ (Nat.log 10 coef : ℤ) ≤ coef := by exact_mod_cast Nat.pow_log_le_self 10 h
  have high : (coef : ℚ) < 10 ^ ((Nat.log 10 coef : ℤ) + 1) := by
    exact_mod_cast Nat.lt_pow_succ_log_self (by decide) coef
  rw [decimal, zpow_add₀ (by norm_num), zpow_add₀ (by norm_num)]
  exact ⟨mul_le_mul_of_nonneg_right low scale.le, mul_lt_mul_of_pos_right high scale⟩

/-- `10^4933` is at least `2^16384`, the first power of two above every format's largest exponent. -/
theorem two_pow_le_overflow_bound : (2 : ℚ) ^ (16384 : ℤ) ≤ 10 ^ (4933 : ℤ) := by
  have h : 2 ^ 16384 ≤ 10 ^ 4933 := by decide +kernel
  exact_mod_cast h

/-- `10^-4967` is at most `2^-16495`, half the smallest denormal of the widest format. -/
theorem underflow_bound_le_two_pow : (10 : ℚ) ^ (-4967 : ℤ) ≤ 2 ^ (-16495 : ℤ) := by
  have h : 2 ^ 16495 ≤ 10 ^ 4967 := by decide +kernel
  rw [zpow_neg, zpow_neg]
  exact inv_anti₀ (zpow_pos two_pos _) (by exact_mod_cast h)

/-- A number of at least `10^4933` is Infinity in every format (rule R210). -/
theorem encodeQ_decimal_overflow {we wm : Nat} (widths : LegalWidths we wm) (s : Bool) {coef : Nat} {x : ℤ}
    (h : coef ≠ 0) (bound : 4933 ≤ (Nat.log 10 coef : ℤ) + x) :
    encodeQ we wm s (decimal coef x) = patInf we wm s := by
  have top : emax we + 1 ≤ 16384 := by
    obtain ⟨we_ge, we_le, -⟩ := widths
    have := bias_le we_le
    rw [emax_eq_bias (by omega)]; omega
  refine encodeQ_of_ge widths s ?_
  calc (2 : ℚ) ^ (emax we + 1) ≤ 2 ^ (16384 : ℤ) := zpow_le_zpow_right₀ one_le_two top
    _ ≤ 10 ^ (4933 : ℤ) := two_pow_le_overflow_bound
    _ ≤ 10 ^ ((Nat.log 10 coef : ℤ) + x) := zpow_le_zpow_right₀ (by norm_num) bound
    _ ≤ decimal coef x := (decimal_decade h x).1

/-- A number below `10^-4967` is zero in every format (rule R210). -/
theorem encodeQ_decimal_underflow {we wm : Nat} (widths : LegalWidths we wm) (s : Bool) {coef : Nat} {x : ℤ}
    (h : coef ≠ 0) (bound : (Nat.log 10 coef : ℤ) + 1 + x ≤ -4967) :
    encodeQ we wm s (decimal coef x) = patZero we wm s := by
  obtain ⟨-, we_le, -, wm_le⟩ := widths
  have bottom : -16495 ≤ emin we - wm - 1 := by
    have := bias_le we_le
    rw [emin]; omega
  have decade := decimal_decade h x
  refine encodeQ_of_lt we wm s ((zpow_pos (by norm_num) _).le.trans decade.1) ?_
  calc decimal coef x < 10 ^ ((Nat.log 10 coef : ℤ) + 1 + x) := decade.2
    _ ≤ 10 ^ (-4967 : ℤ) := zpow_le_zpow_right₀ (by norm_num) bound
    _ ≤ 2 ^ (-16495 : ℤ) := underflow_bound_le_two_pow
    _ ≤ 2 ^ (emin we - wm - 1) := zpow_le_zpow_right₀ one_le_two bottom

/-- Settles O38: outside the bounds of rule R210 both sides are Infinity or zero, between them `encodeValue` meets the
rule over ℚ step by step. -/
theorem encoderFollowsTheExactRule : Obligations.EncoderFollowsTheExactRule := by
  intro we wm s coef x widths
  by_cases zero : coef = 0
  · simp [encodeDecimal, encodeQ_eq, decimal, zero]
  simp only [encodeDecimal, if_neg zero]
  split_ifs with overflow underflow
  · exact (encodeQ_decimal_overflow widths s zero (by omega)).symm
  · exact (encodeQ_decimal_underflow widths s zero underflow).symm
  · rw [encodeValue_cast we wm s (scaledInt_den_pos (by decide) coef x), scaledInt_toRat (by decide)]
    rfl

end Sys2Proof.Machine
end

section
/-! PROOFS. Every bit string a command writes is below `2^N`: the encoder's (rules R111 to R119) and the bit operations'
(rules R153 to R158). This is what keeps invariant (b) of rule R36. -/

namespace Sys2Proof.Machine

/-! The encoder's fields and patterns. -/

/-- Fields of their widths give a pattern of N bits (rules R9, R118). -/
theorem packFields_lt {we wm ef mf : Nat} (s : Bool) (exp : ef < 2 ^ we) (man : mf < 2 ^ wm) :
    packFields we wm s ef mf < 2 ^ totalBits we wm := by
  have fields : ef * 2 ^ wm + mf < 2 ^ (we + wm) := by
    calc ef * 2 ^ wm + mf < (ef + 1) * 2 ^ wm := by rw [Nat.succ_mul]; omega
      _ ≤ 2 ^ we * 2 ^ wm := Nat.mul_le_mul_right _ exp
      _ = 2 ^ (we + wm) := (pow_add 2 we wm).symm
  have sign : s.toNat * 2 ^ (we + wm) ≤ 2 ^ (we + wm) := by cases s <;> simp
  rw [packFields, totalBits, add_assoc 1, add_comm 1, pow_succ]
  omega

theorem eOnes_lt (we : Nat) : eOnes we < 2 ^ we := Nat.sub_lt (Nat.two_pow_pos we) one_pos

theorem patZero_lt (we wm : Nat) (s : Bool) : patZero we wm s < 2 ^ totalBits we wm :=
  packFields_lt s (Nat.two_pow_pos we) (Nat.two_pow_pos wm)

theorem patInf_lt (we wm : Nat) (s : Bool) : patInf we wm s < 2 ^ totalBits we wm :=
  packFields_lt s (eOnes_lt we) (Nat.two_pow_pos wm)

theorem patNan_lt (we wm : Nat) (s : Bool) : patNan we wm s < 2 ^ totalBits we wm :=
  packFields_lt s (eOnes_lt we) (Nat.sub_lt (Nat.two_pow_pos wm) one_pos)

/-- The carry of a full mantissa goes into an exponent field that has room for it (rule R117). -/
theorem assembleFields_lt {we wm ef mRaw : Nat} (s : Bool) (exp : ef < eOnes we) (man : mRaw ≤ 2 ^ wm) :
    assembleFields we wm s ef mRaw < 2 ^ totalBits we wm := by
  have top := eOnes_lt we
  rw [assembleFields]
  split_ifs with carry
  · exact patInf_lt we wm s
  · exact packFields_lt s (by omega) (Nat.two_pow_pos wm)
  · exact packFields_lt s (by omega) (by omega)

/-- A value of at most `2^wm` rounds to at most `2^wm`. -/
theorem roundQ_le_two_pow {x : ℚ} {wm : Nat} (h : x ≤ 2 ^ wm) : roundQ x ≤ 2 ^ wm := by
  rw [roundQ, Int.floor_le_iff]
  push_cast
  linarith

/-- Below the smallest normal value the scaled mantissa is at most `2^wm` (rule R112). -/
theorem denormalMantissa_le {we wm : Nat} {d : Frac} (num : 0 < d.num) (den : 0 < d.den)
    (denormal : floorLog 2 d < emin we) : denormalMantissa we wm d ≤ 2 ^ wm := by
  have scaled : d.toRat * 2 ^ ((wm : ℤ) - emin we) ≤ 2 ^ wm := by
    calc d.toRat * 2 ^ ((wm : ℤ) - emin we)
        ≤ 2 ^ emin we * 2 ^ ((wm : ℤ) - emin we) := by
          refine mul_le_mul_of_nonneg_right ?_ (zpow_pos two_pos _).le
          exact (floorLog_bracket one_lt_two num den).2.le.trans (zpow_le_zpow_right₀ one_le_two denormal)
      _ = 2 ^ wm := by rw [← zpow_add₀ two_ne_zero, add_sub_cancel, zpow_natCast]
  have cast := denormalMantissa_cast we wm den
  have bound := cast.trans_le (roundQ_le_two_pow scaled)
  exact_mod_cast bound

/-- The significand at its own exponent is below 2, so its fraction scales to at most `2^wm` (rule R115). -/
theorem normalMantissa_le {wm : Nat} {d : Frac} (num : 0 < d.num) (den : 0 < d.den) :
    normalMantissa wm (floorLog 2 d) d ≤ 2 ^ wm := by
  obtain ⟨low, high⟩ := floorLog_bracket one_lt_two num den
  have fraction : d.toRat / 2 ^ floorLog 2 d - 1 ≤ 1 := by
    have : d.toRat / 2 ^ floorLog 2 d ≤ 2 := by
      rw [div_le_iff₀ (zpow_pos two_pos _), ← zpow_one_add₀ two_ne_zero, add_comm]
      exact high.le
    linarith
  have scaled : (d.toRat / 2 ^ floorLog 2 d - 1) * 2 ^ wm ≤ 2 ^ wm :=
    mul_le_of_le_one_left (pow_pos two_pos wm).le fraction
  have bound := (normalMantissa_cast wm _ den low).trans_le (roundQ_le_two_pow scaled)
  exact_mod_cast bound

/-- `EncodeValue` gives a pattern of N bits (rule R119). -/
theorem encodeValue_lt {we wm : Nat} (s : Bool) {d : Frac} (we_ge : 2 ≤ we) (den : 0 < d.den) :
    encodeValue we wm s d < 2 ^ totalBits we wm := by
  have top : (emax we : ℤ) + bias we + 1 = eOnes we := by rw [emax, eOnes_cast]; ring
  have bias_pos := one_le_bias we_ge
  have emax_bias := emax_eq_bias (we := we) (by omega)
  simp only [encodeValue]
  split_ifs with zero denormal vanishes overflow
  · exact patZero_lt we wm s
  · exact patZero_lt we wm s
  · exact assembleFields_lt s (by omega) (denormalMantissa_le (Nat.pos_of_ne_zero zero) den denormal)
  · exact patInf_lt we wm s
  · refine assembleFields_lt s ?_ (normalMantissa_le (Nat.pos_of_ne_zero zero) den)
    rw [emin] at denormal
    omega

theorem encodeDecimal_lt {we : Nat} (wm : Nat) (s : Bool) (coef : Nat) (x : ℤ) (we_ge : 2 ≤ we) :
    encodeDecimal we wm s coef x < 2 ^ totalBits we wm := by
  rw [encodeDecimal]
  split_ifs
  · exact patZero_lt we wm s
  · exact patInf_lt we wm s
  · exact patZero_lt we wm s
  · exact encodeValue_lt s we_ge (scaledInt_den_pos (by decide) coef x)

/-- Whatever token ENCODE reads, its bit string has N bits (rule R100). -/
theorem encodeToken_lt {we wm v : Nat} {token : Token} (we_ge : 2 ≤ we) (h : encodeToken we wm token = some v) :
    v < 2 ^ totalBits we wm := by
  cases token with
  | error => cases h
  | inf s => exact Option.some.inj h ▸ patInf_lt we wm s
  | nan s => exact Option.some.inj h ▸ patNan_lt we wm s
  | number s coef x => exact Option.some.inj h ▸ encodeDecimal_lt wm s coef x we_ge

/-! The bit operations. -/

/-- A register is below `2^n` exactly when its bits from `n` on are 0. -/
theorem toNat_lt_two_pow_iff {b : Bits} {n : Nat} : b.toNat < 2 ^ n ↔ ∀ k, n ≤ k → b.getLsbD k = false := by
  refine ⟨fun h k hk => ?_, fun h => Nat.lt_pow_two_of_testBit _ fun k hk => ?_⟩
  · rw [← BitVec.testBit_toNat]
    exact Nat.testBit_lt_two_pow (h.trans_le (Nat.pow_le_pow_right two_pos hk))
  · rw [BitVec.testBit_toNat]
    exact h k hk

/-- A number below `2^n` stays below it when it is cut to the register. -/
theorem ofNat_toNat_lt {v n : Nat} (h : v < 2 ^ n) : (BitVec.ofNat 128 v).toNat < 2 ^ n := by
  rw [BitVec.toNat_ofNat]
  exact (Nat.mod_le _ _).trans_lt h

theorem toggledBits_toNat_lt {n i : Nat} {b : Bits} (width : n ≤ 128) (h : i < n) (low : b.toNat < 2 ^ n) :
    (toggledBits n i b).toNat < 2 ^ n := by
  rw [toNat_lt_two_pow_iff] at low ⊢
  intro k hk
  rw [toggledBits_getLsbD width h, if_neg (by omega), low k hk]

theorem rangeSetBits_toNat_lt {n : Nat} (i : Nat) (v : Bool) {b : Bits} (width : n ≤ 128) (low : b.toNat < 2 ^ n) :
    (rangeSetBits n i v b).toNat < 2 ^ n := by
  rw [toNat_lt_two_pow_iff] at low ⊢
  intro k hk
  rw [rangeSetBits_getLsbD width, if_neg (by omega), low k hk]

theorem lowOnes_toNat_lt (n : Nat) : (lowOnes n).toNat < 2 ^ n :=
  ofNat_toNat_lt (Nat.sub_lt (Nat.two_pow_pos n) one_pos)

theorem allSetBits_toNat_lt (n : Nat) (v : Bool) : (allSetBits n v).toNat < 2 ^ n := by
  cases v
  · exact Nat.two_pow_pos n
  · exact lowOnes_toNat_lt n

theorem invertedBits_toNat_lt (n : Nat) (b : Bits) : (invertedBits n b).toNat < 2 ^ n := by
  rw [invertedBits, BitVec.toNat_and]
  exact Nat.and_lt_two_pow _ (lowOnes_toNat_lt n)

theorem exec_rdbits (s : State) : exec .rdbits s = execRdbits s := rfl

/-- Settles O25: in a working state RDBITS passes both checks, and invariant (b) keeps the bits above N at 0. -/
theorem rdbitsAnswersTheBits : Obligations.RdbitsAnswersTheBits := by
  rintro s ⟨live, configured, -, low⟩
  refine ⟨?_, toNat_lt_two_pow_iff.mp low⟩
  rw [exec_rdbits, execRdbits, whenReady_ready _ _ _ live configured]
  rfl

end Sys2Proof.Machine
end

section
/-! PROOFS. What one host move can do to the state, said once with the command that does it, and how a fact about one
step becomes a fact about a run. -/

namespace Sys2Proof.Machine

/-! One step, by the host's oldest waiting move (rules R18, R65, R191, R200). -/

theorem step_idle {s : State} (h : s.pending = []) : step s = .next s := by
  rw [step, nextMove_nil s h]

theorem step_reset {s : State} {rest : List HostMove} (h : s.pending = .reset :: rest) :
    step s = .next (hardwareReset { s with pending := rest }) := by
  rw [step, nextMove_cons s _ _ h]

theorem step_decoded {s : State} {w : Word} {payload : Text} {rest : List HostMove} {i : Instr}
    (h : s.pending = .command w payload :: rest) (decoded : decode w payload = .ok i) :
    step s = exec i { s with pending := rest } := by
  rw [step, nextMove_cons s _ _ h]
  simp only [decoded]

theorem step_rejected {s : State} {w : Word} {payload : Text} {rest : List HostMove} {e : Reject}
    (h : s.pending = .command w payload :: rest) (decoded : decode w payload = .error e) :
    step s = .next (rejectCommand w { s with pending := rest }) := by
  rw [step, nextMove_cons s _ _ h]
  simp only [decoded]

/-! The outcomes of a command, tied to what it decodes to. -/

/-- The commands that write BITS and leave the format as it is (rule R20). -/
abbrev bitWriters : List Opcode := [.encode, .ldbits, .toggle, .setrange, .setall, .invert]

/-- The outcomes of `Effect`, each with the commands that can have it: a new bit string comes from the six bit writers
and keeps to the N bits of the format, a new format comes from CONFIG and has legal widths, and an answer alone comes
from a command that writes nothing. `d` is what the command decodes to. -/
inductive CommandEffect (d : Except Reject Instr) (s : State) : State → Prop where
  | halted : s.fault = true → CommandEffect d s (respond .halted s)
  | faulted (c : FaultCause) (w : Word) : s.fault = false → CommandEffect d s (raiseFault c w s)
  | notLiteral : s.fault = false → CommandEffect d s (respond .inputError s)
  | wrote (i : Instr) (v : Bits) : s.fault = false → s.cfgv = true → d = .ok i → i.opcode ∈ bitWriters →
      (LegalWidths s.we s.wm → s.bits.toNat < 2 ^ s.n → v.toNat < 2 ^ s.n) → CommandEffect d s (writeBits v s)
  | configured (we wm : BitVec 8) (data : RespData) : s.fault = false → d = .ok (.config we wm) →
      LegalWidths we.toNat wm.toNat →
      CommandEffect d s (respond (.ok data) (setFormat (we.setWidth 4) (wm.setWidth 7) s))
  | read (i : Instr) (data : RespData) : d = .ok i → i.opcode ∉ .config :: bitWriters →
      CommandEffect d s (respond (.ok data) s)

theorem CommandEffect.ofLive (d : Except Reject Instr) (s : State) (action : State → State)
    (h : s.fault = false → CommandEffect d s (action s)) : CommandEffect d s (whenLive s action) := by
  cases hf : s.fault with
  | true => rw [whenLive_halted s action hf]; exact .halted hf
  | false => rw [whenLive_live s action hf]; exact h hf

theorem CommandEffect.ofReady (d : Except Reject Instr) (w : Word) (s : State) (action : State → State)
    (h : s.fault = false → s.cfgv = true → CommandEffect d s (action s)) :
    CommandEffect d s (whenReady w s action) := by
  refine .ofLive d s _ fun live => ?_
  split
  · next configured => exact h live configured
  · exact .faulted _ _ live

/-- The widest legal format has 128 bits (rule R83). -/
theorem n_le_of_legal {s : State} (widths : LegalWidths s.we s.wm) : s.n ≤ 128 := by
  rw [State.n, totalBits]
  omega

/-- What a command that decodes can do. -/
theorem exec_commandEffect (i : Instr) (s : State) : ∃ t, exec i s = .next t ∧ CommandEffect (.ok i) s t := by
  cases i with
  | config we wm =>
    refine ⟨_, rfl, .ofLive _ s _ fun live => ?_⟩
    split
    · next legal => exact .configured we wm _ live rfl (legalFormat_iff.mp legal)
    · exact .faulted _ _ live
  | encode text =>
    refine ⟨_, rfl, .ofReady _ _ s _ fun live configured => ?_⟩
    split
    · exact .faulted _ _ live
    · split
      · exact .notLiteral live
      · next v token =>
        exact .wrote _ _ live configured rfl (by simp [Instr.opcode]) fun widths _ =>
          ofNat_toNat_lt (encodeToken_lt widths.1 token)
  | ldbits payload =>
    refine ⟨_, rfl, .ofReady _ _ s _ fun live configured => ?_⟩
    split
    · exact .faulted _ _ live
    · split
      · exact .faulted _ _ live
      · next small =>
        exact .wrote _ _ live configured rfl (by simp [Instr.opcode]) fun _ _ =>
          ofNat_toNat_lt (not_le.mp small)
  | toggle idx =>
    refine ⟨_, rfl, .ofReady _ _ s _ fun live configured => ?_⟩
    split
    · exact .faulted _ _ live
    · next good =>
      exact .wrote _ _ live configured rfl (by simp [Instr.opcode]) fun widths low =>
        toggledBits_toNat_lt (n_le_of_legal widths) (not_le.mp good) low
  | setrange idx v =>
    refine ⟨_, rfl, .ofReady _ _ s _ fun live configured => ?_⟩
    split
    · exact .faulted _ _ live
    · exact .wrote _ _ live configured rfl (by simp [Instr.opcode]) fun widths low =>
        rangeSetBits_toNat_lt idx.toNat v (n_le_of_legal widths) low
  | setall v =>
    exact ⟨_, rfl, .ofReady _ _ s _ fun live configured =>
      .wrote _ _ live configured rfl (by simp [Instr.opcode]) fun _ _ => allSetBits_toNat_lt s.n v⟩
  | invert =>
    exact ⟨_, rfl, .ofReady _ _ s _ fun live configured =>
      .wrote _ _ live configured rfl (by simp [Instr.opcode]) fun _ _ => invertedBits_toNat_lt s.n s.bits⟩
  | rdfmt | decode | rdbits | grouped | hex | chars =>
    exact ⟨_, rfl, .ofReady _ _ s _ fun _ _ => .read _ _ rfl (by decide)⟩
  | rdstat => exact ⟨_, rfl, .read _ _ rfl (by decide)⟩

/-- What a step that takes a command can do, whether it decodes or not. -/
theorem step_commandEffect {s t : State} {w : Word} {payload : Text} {rest : List HostMove}
    (h : s.pending = .command w payload :: rest) (hs : step s = .next t) :
    CommandEffect (decode w payload) { s with pending := rest } t := by
  cases decoded : decode w payload with
  | ok i =>
    obtain ⟨u, hu, effect⟩ := exec_commandEffect i { s with pending := rest }
    rw [step_decoded h decoded, hu] at hs
    cases hs
    exact effect
  | error e =>
    rw [step_rejected h decoded] at hs
    cases hs
    exact .ofLive _ _ _ fun live => .faulted _ _ live

/-! Runs: each induction over the number of steps, once. -/

theorem run_succ {s u : State} (k : Nat) (h : step s = .next u) :
    Host.Core.run Sys2Proof.core (k + 1) s = Host.Core.run Sys2Proof.core k u := by
  have coreStep : Host.Core.step Sys2Proof.core s = .next u := h
  simp only [Host.Core.run, coreStep]

/-- The model has no stop (rule R52). -/
theorem step_completes (s : State) : ∃ t, step s = .next t := by
  obtain ⟨-, idle⟩ | ⟨rest, -, reset⟩ | ⟨_, _, rest, i, -, -, decoded⟩ | ⟨_, _, rest, _, -, -, rejected⟩ :=
    step_cases s
  · exact ⟨s, idle⟩
  · exact ⟨_, reset⟩
  · obtain ⟨t, ht, -⟩ := exec_commandEffect i { s with pending := rest }
    exact ⟨t, decoded.trans ht⟩
  · exact ⟨_, rejected⟩

/-- A predicate that every step keeps is kept by every run. -/
theorem run_keeps {P : State → Prop} (keeps : ∀ s t, P s → step s = .next t → P t) {k : Nat} {s t : State}
    (start : P s) (h : Host.Core.run Sys2Proof.core k s = .next t) : P t := by
  induction k generalizing s with
  | zero => cases h; exact start
  | succ k ih =>
    obtain ⟨u, hu⟩ := step_completes s
    exact ih (keeps s u start hu) (run_succ k hu ▸ h)

/-- A relation that pairs of steps keep is kept by pairs of runs. -/
theorem run_keeps_related {R : State → State → Prop}
    (keeps : ∀ s s', R s s' → ∃ t t', step s = .next t ∧ step s' = .next t' ∧ R t t') {k : Nat} {s s' t : State}
    (start : R s s') (h : Host.Core.run Sys2Proof.core k s = .next t) :
    ∃ t', Host.Core.run Sys2Proof.core k s' = .next t' ∧ R t t' := by
  induction k generalizing s s' with
  | zero => cases h; exact ⟨s', rfl, start⟩
  | succ k ih =>
    obtain ⟨u, u', hu, hu', related⟩ := keeps s s' start
    obtain ⟨t', ht', final⟩ := ih related (run_succ k hu ▸ h)
    exact ⟨t', (run_succ k hu').trans ht', final⟩

end Sys2Proof.Machine
end

section
/-! PROOFS. The state invariants (rule R36), the flags and the fault registers (rules R30, R32), who writes the format and
BITS (rule R27), and the halted state (rule R185). -/

namespace Sys2Proof.Machine

theorem State.SameCodec.refl (s : State) : s.SameCodec s := ⟨rfl, rfl, rfl, rfl⟩

theorem State.SameFaults.refl (s : State) : s.SameFaults s := ⟨rfl, rfl, rfl⟩

theorem State.SameCodec.trans {s t u : State} (h : s.SameCodec t) (g : t.SameCodec u) : s.SameCodec u := by
  obtain ⟨cfgv, expw, manw, bits⟩ := h
  obtain ⟨cfgv', expw', manw', bits'⟩ := g
  exact ⟨cfgv'.trans cfgv, expw'.trans expw, manw'.trans manw, bits'.trans bits⟩

theorem State.SameFaults.trans {s t u : State} (h : s.SameFaults t) (g : t.SameFaults u) : s.SameFaults u := by
  obtain ⟨fault, fcause, fcmd⟩ := h
  obtain ⟨fault', fcause', fcmd'⟩ := g
  exact ⟨fault'.trans fault, fcause'.trans fcause, fcmd'.trans fcmd⟩

/-- The cause codes are 1 to 6 (rule R184). -/
theorem FaultCause.code_range (c : FaultCause) : 1 ≤ c.code.toNat ∧ c.code.toNat ≤ 6 := by
  cases c <;> decide

/-- With both flags and the fault registers at 0 nothing is left of the invariants (rule R36). -/
theorem inv_of_cleared {s : State} (cfgv : s.cfgv = false) (fault : s.fault = false) (fcause : s.fcause = 0)
    (fcmd : s.fcmd = 0) : s.Inv := by
  unfold State.Inv
  simp [cfgv, fault, fcause, fcmd]

/-- Settles O10. -/
theorem resetStateMeetsTheInvariant : Obligations.ResetStateMeetsTheInvariant :=
  ⟨rfl, rfl, rfl, rfl, inv_of_cleared rfl rfl rfl rfl⟩

/-- Every outcome of a command keeps the invariants: only a fault touches (c) and (d), only a new format touches (a), and
(b) is met by the zero of CONFIG and by the bound of the bit writers. -/
theorem CommandEffect.keeps_inv {d : Except Reject Instr} {s t : State} (effect : CommandEffect d s t) (inv : s.Inv) :
    t.Inv := by
  obtain ⟨legal, low, clear, cause⟩ := inv
  cases effect with
  | halted | notLiteral | read => exact ⟨legal, low, clear, cause⟩
  | faulted c w => exact ⟨legal, low, nofun, fun _ => c.code_range⟩
  | wrote i v live configured decoded writer bound =>
    exact ⟨legal, fun _ => bound (legal configured) (low configured), clear, cause⟩
  | configured we wm data live decoded widths =>
    obtain ⟨we_fits, wm_fits⟩ := legalFormat_fits (legalFormat_iff.mpr widths)
    refine ⟨fun _ => ?_, fun _ => Nat.two_pow_pos _, clear, cause⟩
    simpa [State.we, State.wm, we_fits, wm_fits] using widths

/-- Settles O11, by the move the step takes. -/
theorem everyStepKeepsTheInvariant : Obligations.EveryStepKeepsTheInvariant := by
  intro s t inv hs
  cases hp : s.pending with
  | nil => cases (step_idle hp).symm.trans hs; exact inv
  | cons move rest =>
    cases move with
    | reset => cases (step_reset hp).symm.trans hs; exact inv_of_cleared rfl rfl rfl rfl
    | command w payload => exact (step_commandEffect hp hs).keeps_inv inv

/-- Settles O12: reset meets the invariants whatever moves wait, and every step keeps them. -/
theorem everyReachableStateMeetsTheInvariant : Obligations.EveryReachableStateMeetsTheInvariant := by
  intro moves k t run
  exact run_keeps everyStepKeepsTheInvariant (inv_of_cleared rfl rfl rfl rfl) run

/-- Settles O18, by the outcomes of a command: FAULT is set by the outcome that answers FAULT, CFGV by the one that answers
a CONFIG with OK, and the others keep both flags. -/
theorem flagsChangeOnlyAsStated : Obligations.FlagsChangeOnlyAsStated := by
  intro s t move rest hp hs
  cases move with
  | reset => cases (step_reset hp).symm.trans hs; exact ⟨rfl, rfl⟩
  | command w payload =>
    cases step_commandEffect hp hs with
    | halted | faulted | notLiteral => simp
    | wrote i v live configured => simp [show s.cfgv = true from configured]
    | configured we wm data live decoded => simp [decoded]
    | read i data decoded reader =>
      have notConfig : ∀ we wm, i ≠ .config we wm := by
        rintro we wm rfl
        simp [Instr.opcode] at reader
      simp [decoded, notConfig]

/-- Settles O20: of a command's outcomes only a raised fault writes FCAUSE and FCMD. -/
theorem firstFaultWins : Obligations.FirstFaultWins := by
  intro s t w payload rest hp hs changed
  cases step_commandEffect hp hs with
  | faulted c w live => exact ⟨live, rfl⟩
  | halted | notLiteral | wrote | configured | read => simp at changed

/-- Settles O21: the two outcomes that write the format or BITS answer OK and belong to one of the seven writers. -/
theorem onlyCompletedWritersWrite : Obligations.OnlyCompletedWritersWrite := by
  intro s t w payload rest hp hs
  cases step_commandEffect hp hs with
  | halted | faulted | notLiteral | read => exact ⟨fun _ => .refl s, fun _ _ _ => .refl s⟩
  | wrote i v live configured decoded writer _ =>
    refine ⟨fun notOk => absurd rfl (notOk _), fun j hj reader => ?_⟩
    cases decoded.symm.trans hj
    exact absurd (List.mem_cons_of_mem _ writer) reader
  | configured we wm data live decoded _ =>
    refine ⟨fun notOk => absurd rfl (notOk _), fun j hj reader => ?_⟩
    cases decoded.symm.trans hj
    exact absurd List.mem_cons_self reader

/-! The halted state. -/

/-- `t` is halted as `s` is, and no reset waits in it. -/
def StillHalted (s t : State) : Prop :=
  t.fault = true ∧ (∀ m ∈ t.pending, m ≠ HostMove.reset) ∧ s.SameFaults t ∧ s.SameCodec t

/-- In a halted unit a command changes none of the seven registers and takes no further move (rule R185). -/
theorem CommandEffect.of_halted {d : Except Reject Instr} {s t : State} (effect : CommandEffect d s t)
    (halted : s.fault = true) : t.pending = s.pending ∧ s.SameFaults t ∧ s.SameCodec t := by
  cases effect with
  | halted | read => exact ⟨rfl, .refl s, .refl s⟩
  | faulted _ _ live | notLiteral live | wrote _ _ live | configured _ _ _ live => simp [live] at halted

theorem step_keeps_stillHalted {s t u : State} (h : StillHalted s t) (hs : step t = .next u) : StillHalted s u := by
  obtain ⟨halted, noReset, faults, codec⟩ := h
  cases hp : t.pending with
  | nil => cases (step_idle hp).symm.trans hs; exact ⟨halted, noReset, faults, codec⟩
  | cons move rest =>
    cases move with
    | reset => exact absurd rfl (noReset .reset (hp ▸ List.mem_cons_self))
    | command w payload =>
      obtain ⟨pending, sameFaults, sameCodec⟩ := (step_commandEffect hp hs).of_halted halted
      refine ⟨sameFaults.1.trans halted, fun m hm => noReset m ?_, faults.trans sameFaults, codec.trans sameCodec⟩
      rw [pending] at hm
      exact hp ▸ List.mem_cons_of_mem _ hm

/-- Settles O17, by induction on the steps with `StillHalted` as the invariant. -/
theorem haltedUnitStaysHalted : Obligations.HaltedUnitStaysHalted := by
  intro s t k halted noReset run
  have start : StillHalted s s := ⟨halted, noReset, ⟨rfl, rfl, rfl⟩, rfl, rfl, rfl, rfl⟩
  obtain ⟨-, -, faults, codec⟩ := run_keeps (fun _ _ => step_keeps_stillHalted) start run
  exact ⟨faults, codec⟩

end Sys2Proof.Machine
end

section
/-! PROOFS. CONFIG (rules R86, R87), and what can be seen of EXPW, MANW and BITS before the first CONFIG (rules R26,
R186). -/

namespace Sys2Proof.Machine

theorem exec_config (we wm : BitVec 8) (s : State) : exec (.config we wm) s = execConfig we wm s := rfl

/-! The response fields hold the derived constants without truncation (rules R72, R80 to R83). -/

theorem biasField_toNat {we : Nat} (h : we ≤ 15) : (biasField we).toNat = bias we := by
  have := bias_le h
  rw [biasField, BitVec.toNat_ofNat]
  omega

theorem eminField_toInt {we : Nat} (h : we ≤ 15) : (eminField we).toInt = emin we := by
  have := bias_le h
  exact BitVec.toInt_ofInt_eq_self (by decide) (by rw [emin]; omega) (by rw [emin]; omega)

theorem emaxField_toNat {we : Nat} (low : 2 ≤ we) (high : we ≤ 15) : ((emaxField we).toNat : ℤ) = emax we := by
  have := bias_le high
  rw [emaxField, BitVec.toNat_ofInt, emax_eq_bias (by omega)]
  omega

theorem nField_toNat {we wm : Nat} (widths : LegalWidths we wm) : (nField we wm).toNat = 1 + we + wm := by
  rw [nField, totalBits, BitVec.toNat_ofNat]
  omega

theorem execConfig_legal {we wm : BitVec 8} {s : State} (live : s.fault = false)
    (widths : LegalWidths we.toNat wm.toNat) :
    execConfig we wm s = .next (respond (.ok (.configured (biasField we.toNat) (eminField we.toNat)
      (emaxField we.toNat) (nField we.toNat wm.toNat) 0)) (setFormat (we.setWidth 4) (wm.setWidth 7) s)) := by
  rw [execConfig, whenLive_live _ _ live, if_pos (legalFormat_iff.mpr widths)]

theorem execConfig_illegal {we wm : BitVec 8} {s : State} (live : s.fault = false)
    (widths : ¬ LegalWidths we.toNat wm.toNat) :
    execConfig we wm s = .next (raiseFault .badFormat (commandWord (.config we wm)) s) := by
  rw [execConfig, whenLive_live _ _ live, if_neg (mt legalFormat_iff.mp widths)]

/-- Settles O22: every constant of a legal format fits its response field, and every legal width its register. -/
theorem configSetsTheFormat : Obligations.ConfigSetsTheFormat := by
  intro we wm s live
  split_ifs with widths
  · obtain ⟨we_fits, wm_fits⟩ := legalFormat_fits (legalFormat_iff.mpr widths)
    have ⟨we_ge, we_le, _, _⟩ := widths
    have bias_eq := biasField_toNat we_le
    refine ⟨we.setWidth 4, wm.setWidth 7, biasField we.toNat, eminField we.toNat, emaxField we.toNat,
      nField we.toNat wm.toNat, we_fits, wm_fits, bias_eq, ?_, ?_, nField_toNat widths, ?_⟩
    · rw [eminField_toInt we_le, bias_eq, emin]
    · rw [emaxField_toNat we_ge we_le, bias_eq, emax]
    · exact (exec_config we wm s).trans (execConfig_legal live widths)
  · exact (exec_config we wm s).trans (execConfig_illegal live widths)

/-! Unconfigured states that differ in EXPW, MANW and BITS. -/

/-- `s` with other contents of EXPW, MANW and BITS. -/
def State.withRegisters (s : State) (e : BitVec 4) (m : BitVec 7) (b : Bits) : State :=
  { s with expw := e, manw := m, bits := b }

@[simp] theorem State.withRegisters_cfgv (s : State) (e : BitVec 4) (m : BitVec 7) (b : Bits) :
    (s.withRegisters e m b).cfgv = s.cfgv := rfl

/-- The same state, or two unconfigured states that differ at most in EXPW, MANW and BITS. -/
inductive Indistinct : State → State → Prop where
  | same (s : State) : Indistinct s s
  | unconfigured (s : State) (e : BitVec 4) (m : BitVec 7) (b : Bits) : s.cfgv = false →
      Indistinct s (s.withRegisters e m b)

theorem indistinct_of_unconfigured {s s' : State} (hc : s.cfgv = false) (hc' : s'.cfgv = false)
    (faults : s.SameFaults s') (pending : s'.pending = s.pending) (responses : s'.responses = s.responses) :
    Indistinct s s' := by
  obtain ⟨fault, fcause, fcmd⟩ := faults
  have : s' = s.withRegisters s'.expw s'.manw s'.bits := by
    cases s; cases s'
    simp_all [State.withRegisters]
  rw [this]
  exact .unconfigured s _ _ _ hc

/-- What can be observed of two indistinct states is the same, and once configured they are equal. -/
theorem Indistinct.observed {t t' : State} (h : Indistinct t t') :
    t'.responses = t.responses ∧ t'.cfgv = t.cfgv ∧ t.SameFaults t' ∧ (t.cfgv = true → t' = t) := by
  cases h with
  | same => exact ⟨rfl, rfl, .refl t, fun _ => rfl⟩
  | unconfigured e m b hc => exact ⟨rfl, rfl, .refl t, fun configured => by simp [hc] at configured⟩

section
variable {s : State} (hc : s.cfgv = false) (e : BitVec 4) (m : BitVec 7) (b : Bits)
include hc

/-- The halted check reads none of the three registers (rule R187, check 1). -/
theorem indistinct_whenLive {action : State → State}
    (h : Indistinct (action s) (action (s.withRegisters e m b))) :
    Indistinct (whenLive s action) (whenLive (s.withRegisters e m b) action) := by
  cases hf : s.fault with
  | true =>
    rw [whenLive_halted s _ hf, whenLive_halted (s.withRegisters e m b) _ hf]
    exact .unconfigured (respond .halted s) e m b hc
  | false =>
    rw [whenLive_live s _ hf, whenLive_live (s.withRegisters e m b) _ hf]
    exact h

/-- An unconfigured unit stops at the check for a format, before the command's own action (rule R186). -/
theorem indistinct_whenReady (w : Word) (action : State → State) :
    Indistinct (whenReady w s action) (whenReady w (s.withRegisters e m b) action) := by
  refine indistinct_whenLive hc e m b ?_
  simp only [State.withRegisters_cfgv, hc, Bool.false_eq_true, if_false]
  exact .unconfigured (raiseFault .notConfigured w s) e m b hc

/-- No command tells two unconfigured states apart: CONFIG overwrites the three registers, RDSTAT reads others, and every
other command stops at the check for a format. -/
theorem exec_indistinct (i : Instr) :
    ∃ t t', exec i s = .next t ∧ exec i (s.withRegisters e m b) = .next t' ∧ Indistinct t t' := by
  cases i with
  | config we wm =>
    refine ⟨_, _, rfl, rfl, indistinct_whenLive hc e m b ?_⟩
    split
    · exact .same _
    · exact .unconfigured (raiseFault .badFormat (commandWord (.config we wm)) s) e m b hc
  | rdstat =>
    exact ⟨_, _, rfl, rfl, .unconfigured (respond (.ok (.status s.cfgv s.fault s.fcause s.fcmd)) s) e m b hc⟩
  | encode | ldbits | toggle | setrange | setall | rdfmt | decode | rdbits | invert | grouped | hex | chars =>
    exact ⟨_, _, rfl, rfl, indistinct_whenReady hc e m b _ _⟩

end

/-- A step keeps two states indistinct, whichever move it takes. -/
theorem step_keeps_indistinct {s s' : State} (h : Indistinct s s') :
    ∃ t t', step s = .next t ∧ step s' = .next t' ∧ Indistinct t t' := by
  cases h with
  | same =>
    obtain ⟨t, ht⟩ := step_completes s
    exact ⟨t, t, ht, ht, .same t⟩
  | unconfigured e m b hc =>
    cases hp : s.pending with
    | nil => exact ⟨_, _, step_idle hp, step_idle hp, .unconfigured s e m b hc⟩
    | cons move rest =>
      cases move with
      | reset => exact ⟨_, _, step_reset hp, step_reset hp, .same _⟩
      | command w payload =>
        cases decoded : decode w payload with
        | ok i =>
          rw [step_decoded hp decoded, step_decoded (s := s.withRegisters e m b) hp decoded]
          exact exec_indistinct (s := { s with pending := rest }) hc e m b i
        | error _ =>
          exact ⟨_, _, step_rejected hp decoded, step_rejected hp decoded,
            indistinct_whenLive (s := { s with pending := rest }) hc e m b
              (.unconfigured (raiseFault .illegalCmd w { s with pending := rest }) e m b hc)⟩

/-- Settles O57: `Indistinct` holds at the start, pairs of steps keep it, and it gives what can be observed. -/
theorem unconfiguredRegistersAreUnobservable : Obligations.UnconfiguredRegistersAreUnobservable := by
  intro s s' hc hc' faults pending responses k t run
  have start := indistinct_of_unconfigured hc hc' faults pending responses
  obtain ⟨t', run', final⟩ := run_keeps_related (fun _ _ => step_keeps_indistinct) start run
  exact ⟨t', run', final.observed⟩

end Sys2Proof.Machine
end

section
/-! PROOFS. The host's moves: one step takes the oldest one and answers it once when it is a command, so a run of as
many steps as moves wait takes them all (rules R52, R70, R212). -/

namespace Sys2Proof.Machine

/-- Settles O7. -/
theorem stepRunsTheDecodedCommand : Obligations.StepRunsTheDecodedCommand :=
  fun _ _ _ _ _ => step_decoded

/-- Settles O13: each of the cases of `step_cases` ends in a next state. -/
theorem everyStepCompletes : Obligations.EveryStepCompletes := step_completes

/-- The commands among the moves: a hardware reset asks for no response (rule R200). -/
abbrev commandsOf (moves : List HostMove) : List HostMove := moves.filter fun m => decide (m ≠ .reset)

/-- Whatever a command's outcome, it answers exactly once and leaves the other moves waiting (rules R11, R70). -/
theorem CommandEffect.answers_once {d : Except Reject Instr} {s t : State} (effect : CommandEffect d s t) :
    t.pending = s.pending ∧ ∃ r, t.responses = s.responses ++ [r] := by
  cases effect with
  | halted | faulted | notLiteral | wrote | configured | read => exact ⟨rfl, _, rfl⟩

/-- A step takes the oldest move, and answers once when that is a command. -/
theorem step_takes_move {s : State} {move : HostMove} {rest : List HostMove} (h : s.pending = move :: rest) :
    ∃ u, step s = .next u ∧ u.pending = rest
      ∧ ∃ rs, u.responses = s.responses ++ rs ∧ rs.length = (commandsOf [move]).length := by
  cases move with
  | reset => exact ⟨_, step_reset h, rfl, [], (List.append_nil _).symm, rfl⟩
  | command w payload =>
    obtain ⟨u, hu⟩ := step_completes s
    obtain ⟨pending, r, responses⟩ := (step_commandEffect h hu).answers_once
    exact ⟨u, hu, pending, [r], responses, rfl⟩

/-- Settles O14, by induction on the waiting moves: a step takes the oldest, and the run after it takes the others. -/
theorem everyMoveIsTakenAndAnswered : Obligations.EveryMoveIsTakenAndAnswered := by
  intro s
  generalize hp : s.pending = moves
  induction moves generalizing s with
  | nil => exact ⟨s, rfl, hp, [], (List.append_nil _).symm, rfl⟩
  | cons move rest ih =>
    obtain ⟨u, hu, pending, first, hfirst, first_length⟩ := step_takes_move hp
    obtain ⟨t, run, done, others, hothers, others_length⟩ := ih u pending
    refine ⟨t, (run_succ rest.length hu).trans run, done, first ++ others, ?_, ?_⟩
    · rw [hothers, hfirst, List.append_assoc]
    · rw [← List.singleton_append, List.filter_append, List.length_append, List.length_append, first_length,
        others_length]

end Sys2Proof.Machine
end

section
/-! PROOFS. The seven commands that only answer: DECODE, RDBITS, RDFMT, RDSTAT, GROUPED, HEX and CHARS (rules R47, R147,
R148). -/

namespace Sys2Proof.Machine

/-- In every ready state the command answers OK with the data `answer` reads from the state, and writes nothing. -/
def OnlyAnswers (i : Instr) (answer : State → RespData) : Prop :=
  ∀ s : State, s.Ready → exec i s = .next (respond (.ok (answer s)) s)

/-- A command that answers once the common checks are passed only answers in a ready state (rule R187). -/
theorem onlyAnswers_of_whenReady {i : Instr} {w : Word} {answer : State → RespData}
    (h : ∀ s, exec i s = .next (whenReady w s fun s => respond (.ok (answer s)) s)) : OnlyAnswers i answer := by
  rintro s ⟨live, configured⟩
  rw [h, whenReady_ready w s _ live configured]

theorem decode_onlyAnswers : OnlyAnswers .decode fun s => .decoded (decodeBits s.we s.wm s.bits) :=
  onlyAnswers_of_whenReady fun _ => rfl

theorem rdbits_onlyAnswers : OnlyAnswers .rdbits fun s => .bits s.bits :=
  onlyAnswers_of_whenReady fun _ => rfl

theorem rdfmt_onlyAnswers : OnlyAnswers .rdfmt fun s =>
    .format s.expw s.manw (biasField s.we) (eminField s.we) (emaxField s.we) (nField s.we s.wm) :=
  onlyAnswers_of_whenReady fun _ => rfl

/-- RDSTAT makes none of the checks (rules R185, R188). -/
theorem rdstat_onlyAnswers : OnlyAnswers .rdstat fun s => .status s.cfgv s.fault s.fcause s.fcmd :=
  fun _ _ => rfl

theorem grouped_onlyAnswers : OnlyAnswers .grouped fun s => .text (groupedText s.we s.wm s.bits) :=
  onlyAnswers_of_whenReady fun _ => rfl

theorem hex_onlyAnswers : OnlyAnswers .hex fun s => .text (hexText s.n s.bits) :=
  onlyAnswers_of_whenReady fun _ => rfl

theorem chars_onlyAnswers : OnlyAnswers .chars fun s =>
    .chars (biasField s.we) (BitVec.ofNat 5 (digitCount s.wm)) (epsilonOf s.wm) (maxNormalOf s.we s.wm)
      (minNormalOf s.we s.wm) (minDenormalOf s.we s.wm) :=
  onlyAnswers_of_whenReady fun _ => rfl

/-- A reading command's answer is read from the registers alone, so a response given before does not change it. -/
theorem exists_onlyAnswers_of_reader {i : Instr}
    (reader : i ∈ [Instr.decode, .rdbits, .rdfmt, .rdstat, .grouped, .hex, .chars]) :
    ∃ answer, OnlyAnswers i answer ∧ ∀ r s, answer (respond r s) = answer s := by
  simp only [List.mem_cons, List.not_mem_nil, or_false] at reader
  obtain rfl | rfl | rfl | rfl | rfl | rfl | rfl := reader
  · exact ⟨_, decode_onlyAnswers, fun _ _ => rfl⟩
  · exact ⟨_, rdbits_onlyAnswers, fun _ _ => rfl⟩
  · exact ⟨_, rdfmt_onlyAnswers, fun _ _ => rfl⟩
  · exact ⟨_, rdstat_onlyAnswers, fun _ _ => rfl⟩
  · exact ⟨_, grouped_onlyAnswers, fun _ _ => rfl⟩
  · exact ⟨_, hex_onlyAnswers, fun _ _ => rfl⟩
  · exact ⟨_, chars_onlyAnswers, fun _ _ => rfl⟩

/-- Settles O59: answering keeps a state ready and keeps the data a reading command answers with. -/
theorem readersChangeNothing : Obligations.ReadersChangeNothing := by
  intro s i ready reader
  obtain ⟨answer, answers, stable⟩ := exists_onlyAnswers_of_reader reader
  refine ⟨answer s, answers s ready, ?_⟩
  have again := answers (respond (.ok (answer s)) s) ready
  rwa [stable] at again

end Sys2Proof.Machine
end

section
/-! PROOFS. Byte strings as numbers, most significant byte first (rule R43), and what LDBITS does with one (rules R151,
R187). -/

namespace Sys2Proof.Machine

/-! Reading a byte string. -/

theorem bigEndian_lt (t : Text) : bigEndian t < 256 ^ t.length := by
  induction t using List.reverseRecOn with
  | nil => decide
  | append_singleton t x ih =>
    have := x.isLt
    rw [bigEndian_append_singleton, List.length_append, List.length_singleton, pow_succ]
    omega

/-- Byte `i` of a string of `k` bytes has weight `256^(k − 1 − i)` in its number (rule R43). -/
theorem getElem?_eq_bigEndian {t : Text} {i : Nat} (h : i < t.length) :
    t[i]? = some (BitVec.ofNat 8 (bigEndian t / 256 ^ (t.length - 1 - i))) := by
  induction t using List.reverseRecOn with
  | nil => simp at h
  | append_singleton t x ih =>
    have := x.isLt
    rw [List.length_append, List.length_singleton] at h ⊢
    rw [bigEndian_append_singleton, Nat.add_sub_cancel]
    obtain inside | rfl := Nat.lt_succ_iff_lt_or_eq.mp h
    · have weight : t.length - i = (t.length - 1 - i) + 1 := by omega
      have shifted : (bigEndian t * 256 + x.toNat) / 256 = bigEndian t := by omega
      rw [List.getElem?_append_left inside, ih inside, weight, pow_succ', ← Nat.div_div_eq_div_mul, shifted]
    · rw [List.getElem?_concat_length, Nat.sub_self, pow_zero, Nat.div_one]
      congr 1
      apply BitVec.eq_of_toNat_eq
      rw [BitVec.toNat_ofNat]
      omega

/-- Writing a number in `k` bytes and reading them back gives its value modulo `256^k`. -/
theorem bigEndian_bigEndianBytes (k v : Nat) : bigEndian (bigEndianBytes k v) = v % 256 ^ k := by
  induction k generalizing v with
  | zero => rw [pow_zero, Nat.mod_one]; rfl
  | succ k ih =>
    rw [bigEndianBytes, bigEndian_append_singleton, ih, BitVec.toNat_ofNat, pow_succ' 256, Nat.mod_mul]
    omega

/-! The 16 bytes of a bit string. -/

/-- The value of a 16-byte string has those bytes, byte 0 in bits 127 to 120. -/
theorem getElem?_eq_extractLsb' {payload : Text} {v : Bits} (length : payload.length = 16)
    (value : bigEndian payload = v.toNat) {i : Nat} (h : i < 16) :
    payload[i]? = some (v.extractLsb' (120 - 8 * i) 8) := by
  have weight : 256 ^ (16 - 1 - i) = 2 ^ (120 - 8 * i) := by
    rw [show 256 = 2 ^ 8 from rfl, ← pow_mul]
    congr 1
    omega
  rw [getElem?_eq_bigEndian (length ▸ h), length, value, weight, BitVec.extractLsb', Nat.shiftRight_eq_div_pow]

theorem bigEndian_bitsBytes (v : Bits) : bigEndian (bitsBytes v) = v.toNat := by
  rw [bitsBytes, bigEndian_bigEndianBytes]
  exact Nat.mod_eq_of_lt v.isLt

theorem bitsBytes_length (v : Bits) : (bitsBytes v).length = 16 := bigEndianBytes_length 16 v.toNat

/-- The value of a 16-byte string fits the register: nothing is cut when LDBITS writes it. -/
theorem ofNat_bigEndian_toNat {payload : Text} (length : payload.length = 16) :
    (BitVec.ofNat 128 (bigEndian payload)).toNat = bigEndian payload := by
  have bound := bigEndian_lt payload
  rw [length] at bound
  exact Nat.mod_eq_of_lt bound

/-! LDBITS in a ready state, by its two checks in their order. -/

theorem exec_ldbits (payload : Text) (s : State) : exec (.ldbits payload) s = execLdbits payload s := rfl

section
variable {payload : Text} {s : State} (ready : s.Ready)
include ready

theorem execLdbits_badLength (length : payload.length ≠ 16) :
    execLdbits payload s = .next (raiseFault .badLength (commandWord (.ldbits payload)) s) := by
  obtain ⟨live, configured⟩ := ready
  rw [execLdbits, whenReady_ready _ _ _ live configured, if_pos length]

theorem execLdbits_badValue (length : payload.length = 16) (big : 2 ^ s.n ≤ bigEndian payload) :
    execLdbits payload s = .next (raiseFault .badValue (commandWord (.ldbits payload)) s) := by
  obtain ⟨live, configured⟩ := ready
  rw [execLdbits, whenReady_ready _ _ _ live configured, if_neg (not_not.mpr length), if_pos big]

theorem execLdbits_writes {v : Bits} (length : payload.length = 16) (value : bigEndian payload = v.toNat)
    (small : v.toNat < 2 ^ s.n) : execLdbits payload s = .next (writeBits v s) := by
  obtain ⟨live, configured⟩ := ready
  rw [execLdbits, whenReady_ready _ _ _ live configured, if_neg (not_not.mpr length), value,
    if_neg (Nat.not_le.mpr small), BitVec.ofNat_toNat, BitVec.setWidth_eq]

end

/-- Settles O24: the value is the number of the 16 bytes, which the register holds whole. -/
theorem ldbitsWritesItsValue : Obligations.LdbitsWritesItsValue := by
  intro payload s ready
  refine ⟨fun length => (exec_ldbits payload s).trans (execLdbits_badLength ready length), fun length => ?_⟩
  have value := (ofNat_bigEndian_toNat length).symm
  refine ⟨BitVec.ofNat 128 (bigEndian payload), fun i hi => ?_, fun big => ?_, fun small => ?_⟩
  · exact (getElem?_eq_extractLsb' length value hi).symm
  · exact (exec_ldbits payload s).trans (execLdbits_badValue ready length (big.trans_eq value.symm))
  · exact (exec_ldbits payload s).trans (execLdbits_writes ready length value small)

/-- Settles O53: the bytes of `v` read back as `v`, so LDBITS writes `v`, and the state stays ready for RDBITS. -/
theorem loadedBitsReadBack : Obligations.LoadedBitsReadBack := by
  intro s v ready small
  have length := bitsBytes_length v
  have value := bigEndian_bitsBytes v
  refine ⟨length, fun i hi => getElem?_eq_extractLsb' length value hi, ?_, ?_⟩
  · exact (exec_ldbits (bitsBytes v) s).trans (execLdbits_writes ready length value small)
  · exact rdbits_onlyAnswers (s.wrote v) ready

end Sys2Proof.Machine
end

section
/-! PROOFS. The command encoding against the opcode table (rules R55 to R66): a word is its opcode byte and its low 24
bits, and of these the reserved ones are 0 and the others are the fields. -/

namespace Sys2Proof

open Machine

/-! A word in its two parts. -/

/-- Bits 23..0 of a word, below the opcode (rule R55). -/
def operandPart (w : Word) : BitVec 24 := w.extractLsb' 0 24

theorem fieldOp_and (u v : Word) : fieldOp (u &&& v) = fieldOp u &&& fieldOp v := BitVec.extractLsb'_and

theorem operandPart_and (u v : Word) : operandPart (u &&& v) = operandPart u &&& operandPart v :=
  BitVec.extractLsb'_and

theorem fieldOp_append_operandPart (w : Word) : (fieldOp w ++ operandPart w : Word) = w :=
  BitVec.extractLsb'_append_extractLsb' (w := 8) (len := 24)

theorem word_eq_iff {u v : Word} : u = v ↔ fieldOp u = fieldOp v ∧ operandPart u = operandPart v := by
  refine ⟨fun h => h ▸ ⟨rfl, rfl⟩, fun ⟨op, operand⟩ => ?_⟩
  rw [← fieldOp_append_operandPart u, op, operand, fieldOp_append_operandPart]

theorem fieldOp_commandWord (i : Instr) : fieldOp (commandWord i) = i.opcode.code :=
  BitVec.extractLsb'_append_eq_left

theorem fieldOp_toNat (w : Word) : (fieldOp w).toNat = w.toNat / 2 ^ 24 := by
  have := w.isLt
  rw [fieldOp, BitVec.extractLsb'_toNat, Nat.shiftRight_eq_div_pow]
  omega

/-! The opcode table's match and mask (rule R64). -/

theorem tableRow_match (op : Opcode) : fieldOp (tableRow op).1 = op.code ∧ operandPart (tableRow op).1 = 0 := by
  cases op <;> decide

/-- A row's mask keeps the opcode and the bits that the row's format reserves. -/
theorem tableRow_mask (op : Opcode) : fieldOp (tableRow op).2 = BitVec.allOnes 8
    ∧ operandPart (tableRow op).2 = operandPart (reservedBits op.format) := by
  cases op <;> decide

theorem fieldOp_reservedBits (fmt : Format) : fieldOp (reservedBits fmt) = 0 := by
  cases fmt <;> decide

theorem and_reservedBits_eq_zero_iff {w : Word} {fmt : Format} :
    w &&& reservedBits fmt = 0 ↔ operandPart w &&& operandPart (reservedBits fmt) = 0 := by
  rw [word_eq_iff, fieldOp_and, operandPart_and, fieldOp_reservedBits]
  exact and_iff_right BitVec.and_zero

/-- A word matches a row exactly when it has the row's opcode and no reserved bit. -/
theorem and_mask_eq_match_iff {w : Word} {op : Opcode} : w &&& (tableRow op).2 = (tableRow op).1
    ↔ fieldOp w = op.code ∧ w &&& reservedBits op.format = 0 := by
  obtain ⟨matchOp, matchOperand⟩ := tableRow_match op
  obtain ⟨maskOp, maskOperand⟩ := tableRow_mask op
  rw [word_eq_iff, fieldOp_and, operandPart_and, matchOp, matchOperand, maskOp, maskOperand, BitVec.and_allOnes,
    and_reservedBits_eq_zero_iff]

/-- The payload length the table asks for is the decoder's (rules R62, R65). -/
theorem payloadLen_eq (op : Opcode) (w : Word) :
    payloadLen op.format w = if op = .encode ∨ op = .ldbits then w.toNat % 2 ^ 16 else 0 := by
  have len : (fieldLen w).toNat = w.toNat % 2 ^ 16 := BitVec.extractLsb'_toNat 0 16 w
  cases op <;> simp [payloadLen, Opcode.format, len]

/-- Selecting a row of the table is passing the decoder's three checks (rules R64, R65). -/
theorem selectsRow_iff {w : Word} {payload : Text} {op : Opcode} : SelectsRow w payload op
    ↔ fieldOp w = op.code ∧ w &&& reservedBits op.format = 0 ∧ payload.length = payloadLen op.format w := by
  rw [SelectsRow, and_mask_eq_match_iff, payloadLen_eq, and_assoc]

theorem decode_ok_iff_selectsRow {w : Word} {payload : Text} {i : Instr} :
    decode w payload = .ok i ↔ ∃ op, SelectsRow w payload op ∧ i = op.instr w payload := by
  simp only [decode_ok_iff, selectsRow_iff, and_assoc]

theorem opcode_code_injective : Function.Injective Opcode.code := fun op op' h =>
  Option.some.inj ((rowOf_code op).symm.trans (h ▸ rowOf_code op'))

/-- Settles O3: the decoder's checks are the table's, and the opcode tells the rows apart. -/
theorem decoderAcceptsExactlyTheTable : Obligations.DecoderAcceptsExactlyTheTable := by
  intro w payload
  refine ⟨⟨fun ⟨i, decoded⟩ => ?_, fun ⟨op, row⟩ => ?_⟩, fun i decoded => ?_, fun op op' row row' => ?_⟩
  · obtain ⟨op, row, -⟩ := decode_ok_iff_selectsRow.mp decoded
    exact ⟨op, row⟩
  · exact ⟨_, decode_ok_iff_selectsRow.mpr ⟨op, row, rfl⟩⟩
  · obtain ⟨op, row, rfl⟩ := decode_ok_iff_selectsRow.mp decoded
    rwa [instr_opcode]
  · obtain ⟨code, -⟩ := selectsRow_iff.mp row
    obtain ⟨code', -⟩ := selectsRow_iff.mp row'
    exact opcode_code_injective (code.symm.trans code')

/-! The fields of a command's word (rules R56 to R63). -/

/-- A command's word selects its own row, so its reserved bits are 0. -/
theorem commandWord_reservedBits (i : Instr) : commandWord i &&& reservedBits i.opcode.format = 0 := by
  have row : Laws.WordMatchesTable.Statement i := by
    cases i with
    | config we wm => exact Laws.WordMatchesTable.config we wm
    | encode text => exact Laws.WordMatchesTable.encode text
    | ldbits payload => exact Laws.WordMatchesTable.ldbits payload
    | toggle idx => exact Laws.WordMatchesTable.toggle idx
    | setrange idx v => exact Laws.WordMatchesTable.setrange idx v
    | setall v => exact Laws.WordMatchesTable.setall v
    | rdfmt | decode | rdbits | invert | grouped | hex | chars | rdstat => rfl
  exact (and_mask_eq_match_iff.mp row).2

/-- A field inside the low 24 bits is a field of the operand part. -/
theorem extractLsb'_commandWord (i : Instr) {start len : Nat} (h : start + len ≤ 24) :
    (commandWord i).extractLsb' start len = i.operandBits.extractLsb' start len :=
  BitVec.extractLsb'_append_eq_of_add_le h

theorem fieldWE_config (we wm : BitVec 8) : fieldWE (commandWord (.config we wm)) = we := by
  rw [fieldWE, extractLsb'_commandWord _ (by decide)]
  exact (BitVec.extractLsb'_append_eq_of_le (by decide)).trans BitVec.extractLsb'_append_eq_right

theorem fieldWM_config (we wm : BitVec 8) : fieldWM (commandWord (.config we wm)) = wm :=
  (extractLsb'_commandWord _ (by decide)).trans BitVec.extractLsb'_append_eq_right

theorem fieldIdx_toggle (idx : BitVec 8) : fieldIdx (commandWord (.toggle idx)) = idx :=
  (extractLsb'_commandWord _ (by decide)).trans BitVec.extractLsb'_append_eq_right

theorem fieldIdx_setrange (idx : BitVec 8) (v : Bool) : fieldIdx (commandWord (.setrange idx v)) = idx :=
  (extractLsb'_commandWord _ (by decide)).trans BitVec.extractLsb'_append_eq_right

theorem fieldV_setrange (idx : BitVec 8) (v : Bool) : fieldV (commandWord (.setrange idx v)) = v := by
  revert idx v; decide

theorem fieldV_setall (v : Bool) : fieldV (commandWord (.setall v)) = v := by
  revert v; decide

theorem fieldLen_encode (text : Text) : fieldLen (commandWord (.encode text)) = BitVec.ofNat 16 text.length :=
  (extractLsb'_commandWord _ (by decide)).trans BitVec.extractLsb'_append_eq_right

theorem fieldLen_ldbits (payload : Text) :
    fieldLen (commandWord (.ldbits payload)) = BitVec.ofNat 16 payload.length :=
  (extractLsb'_commandWord _ (by decide)).trans BitVec.extractLsb'_append_eq_right

/-- LEN carries the length of a payload of at most 65535 bytes (rule R62). -/
theorem lenFits_iff {payload : Text} :
    lenFits payload = true ↔ (BitVec.ofNat 16 payload.length).toNat = payload.length := by
  rw [lenFits, decide_eq_true_iff, BitVec.toNat_ofNat]
  omega

/-- A well-formed command's payload has the length its word asks for (rules R62, R65). -/
theorem commandPayload_length {i : Instr} (wf : i.wellFormed = true) :
    (commandPayload i).length = payloadLen i.opcode.format (commandWord i) := by
  cases i with
  | encode text =>
    exact (lenFits_iff.mp wf).symm.trans (congrArg BitVec.toNat (fieldLen_encode text).symm)
  | ldbits payload =>
    exact (lenFits_iff.mp wf).symm.trans (congrArg BitVec.toNat (fieldLen_ldbits payload).symm)
  | config | rdfmt | decode | rdbits | toggle | setrange | setall | invert | grouped | hex | chars | rdstat => rfl

/-- A command is its row with the fields of its own word and payload (rules R63, R65). -/
theorem instr_commandWord (i : Instr) : i.opcode.instr (commandWord i) (commandPayload i) = i := by
  cases i with
  | config we wm => exact congrArg₂ Instr.config (fieldWE_config we wm) (fieldWM_config we wm)
  | toggle idx => exact congrArg Instr.toggle (fieldIdx_toggle idx)
  | setrange idx v => exact congrArg₂ Instr.setrange (fieldIdx_setrange idx v) (fieldV_setrange idx v)
  | setall v => exact congrArg Instr.setall (fieldV_setall v)
  | encode | ldbits | rdfmt | decode | rdbits | invert | grouped | hex | chars | rdstat => rfl

/-- Settles O1: the word of a command passes the decoder's checks and its fields are the operands. -/
theorem decodeInvertsEncode : Obligations.DecodeInvertsEncode := fun i wf =>
  decode_ok_iff.mpr ⟨i.opcode, fieldOp_commandWord i, commandWord_reservedBits i, commandPayload_length wf,
    (instr_commandWord i).symm⟩

/-! The word of a command that was decoded: no bit is lost. -/

/-- Bits 23..0 that the fields of a word account for, by its format; the reserved bits at 0 (rules R56 to R62). -/
def fieldBits (fmt : Format) (w : Word) : BitVec 24 :=
  match fmt with
  | .z => 0
  | .f => 0#8 ++ fieldWE w ++ fieldWM w
  | .x => 0#16 ++ fieldIdx w
  | .xv => 0#15 ++ BitVec.ofBool (fieldV w) ++ fieldIdx w
  | .v => 0#15 ++ BitVec.ofBool (fieldV w) ++ 0#8
  | .p => 0#8 ++ fieldLen w

/-- Bit by bit, every one of the 24 bits is either reserved or in a field. -/
theorem fieldBits_eq_and_not (fmt : Format) (w : Word) :
    fieldBits fmt w = operandPart (w &&& ~~~reservedBits fmt) := by
  apply BitVec.eq_of_getLsbD_eq
  intro k hk
  cases fmt <;>
    simp only [fieldBits, operandPart, reservedBits, fieldWE, fieldWM, fieldIdx, fieldV, fieldLen,
      BitVec.getLsbD_append, BitVec.getLsbD_extractLsb', BitVec.getLsbD_and] <;>
    interval_cases k <;> simp

theorem fieldBits_of_reserved {fmt : Format} {w : Word} (h : w &&& reservedBits fmt = 0) :
    fieldBits fmt w = operandPart w := by
  have kept : w &&& ~~~reservedBits fmt = w := by
    calc w &&& ~~~reservedBits fmt
        = (w &&& reservedBits fmt) ||| (w &&& ~~~reservedBits fmt) := by rw [h]; exact BitVec.zero_or.symm
      _ = w &&& BitVec.allOnes 32 := by rw [← BitVec.and_or_distrib_left, BitVec.or_not_self]
      _ = w := BitVec.and_allOnes
  rw [fieldBits_eq_and_not, kept]

/-- The operand bits of a decoded command are the fields it was decoded from. -/
theorem operandBits_instr {op : Opcode} {w : Word} {payload : Text} (h : payload.length = payloadLen op.format w) :
    (op.instr w payload).operandBits = fieldBits op.format w := by
  have len (len : payload.length = (fieldLen w).toNat) : BitVec.ofNat 16 payload.length = fieldLen w := by
    rw [len, BitVec.ofNat_toNat, BitVec.setWidth_eq]
  cases op with
  | encode | ldbits => exact congrArg (0#8 ++ ·) (len h)
  | config | rdfmt | decode | rdbits | toggle | setrange | setall | invert | grouped | hex | chars | rdstat => rfl

theorem commandPayload_instr {op : Opcode} {w : Word} {payload : Text} (h : payload.length = payloadLen op.format w) :
    commandPayload (op.instr w payload) = payload := by
  cases op with
  | encode | ldbits => rfl
  | config | rdfmt | decode | rdbits | toggle | setrange | setall | invert | grouped | hex | chars | rdstat =>
    exact (List.eq_nil_of_length_eq_zero h).symm

theorem wellFormed_instr {op : Opcode} {w : Word} {payload : Text} (h : payload.length = payloadLen op.format w) :
    (op.instr w payload).wellFormed = true := by
  cases op with
  | encode | ldbits => exact decide_eq_true (h.trans_le (Nat.le_of_lt_succ (fieldLen w).isLt))
  | config | rdfmt | decode | rdbits | toggle | setrange | setall | invert | grouped | hex | chars | rdstat => rfl

/-- Settles O2: the decoder's checks leave no bit of the word and no byte of the payload outside the fields. -/
theorem encodeInvertsDecode : Obligations.EncodeInvertsDecode := by
  intro w payload i decoded
  obtain ⟨op, code, reserved, length, rfl⟩ := decode_ok_iff.mp decoded
  have word : commandWord (op.instr w payload) = w := by
    rw [commandWord, instr_opcode, operandBits_instr length, fieldBits_of_reserved reserved, ← code,
      fieldOp_append_operandPart]
  exact ⟨wellFormed_instr length, congrArg₂ Prod.mk word (commandPayload_instr length)⟩

/-! Words that select no row (rule R66). -/

theorem code_range (op : Opcode) : 1 ≤ op.code.toNat ∧ op.code.toNat ≤ 0x0E := by
  cases op <;> decide

theorem decode_error_of_no_row {w : Word} {payload : Text} (h : ∀ op, ¬ SelectsRow w payload op) :
    ∃ e, decode w payload = .error e := by
  cases decoded : decode w payload with
  | error e => exact ⟨e, rfl⟩
  | ok i =>
    obtain ⟨op, row, -⟩ := decode_ok_iff_selectsRow.mp decoded
    exact absurd row (h op)

/-- Settles O4: a pair that selects no row is rejected, and the rows' opcodes are 0x01 to 0x0E. -/
theorem illegalCommandFaults : Obligations.IllegalCommandFaults := by
  intro s w payload rest hp live
  refine ⟨fun noRow => ?_, fun outside op row => ?_⟩
  · obtain ⟨e, rejected⟩ := decode_error_of_no_row noRow
    rw [step_rejected hp rejected, rejectCommand, if_neg (by simp [live])]
    rfl
  · obtain ⟨code, -⟩ := selectsRow_iff.mp row
    have range := code_range op
    rw [← code, fieldOp_toNat] at range
    omega

/-! The spec's samples. -/

/-- Settles O5, by running the decoder on each word. -/
theorem sampleWordsDecode : Obligations.SampleWordsDecode := by
  unfold Obligations.SampleWordsDecode
  decide

/-- Settles O6, by running the assembler on each line. -/
theorem assemblerReadsTheListing : Obligations.AssemblerReadsTheListing := by
  unfold Obligations.AssemblerReadsTheListing
  and_intros <;> decide

end Sys2Proof
end

section
/-! PROOFS. What a move answers and writes does not depend on the host's two lists, the waiting moves and the responses
given (rule R75; logs 2 and 3). -/

namespace Sys2Proof.Machine

/-- `s` with other waiting moves and other responses given. -/
def State.withHost (s : State) (pending : List HostMove) (responses : List Response) : State :=
  { s with pending := pending, responses := responses }

theorem eq_withHost_of_same {s s' : State} (codec : s.SameCodec s') (faults : s.SameFaults s') :
    s' = s.withHost s'.pending s'.responses := by
  obtain ⟨cfgv, expw, manw, bits⟩ := codec
  obtain ⟨fault, fcause, fcmd⟩ := faults
  cases s; cases s'
  simp_all [State.withHost]

/-- Whatever the host's two lists are, the action on the registers of `s` ends with the registers of one state `t`, keeps
the waiting moves and adds the same responses. -/
def HostBlind (action : State → State) (s : State) : Prop :=
  ∃ (t : State) (rs : List Response), ∀ pending responses,
    action (s.withHost pending responses) = t.withHost pending (responses ++ rs)

theorem HostBlind.congr {action action' : State → State} {s : State} (h : HostBlind action s)
    (same : ∀ pending responses, action' (s.withHost pending responses) = action (s.withHost pending responses)) :
    HostBlind action' s := by
  obtain ⟨t, rs, ht⟩ := h
  exact ⟨t, rs, fun pending responses => (same pending responses).trans (ht pending responses)⟩

/-! The shared operations and checks. -/

theorem hardwareReset_hostBlind (s : State) : HostBlind hardwareReset s :=
  ⟨State.reset, [], fun _ _ => by simp [hardwareReset, State.withHost]⟩

theorem respond_hostBlind (r : Response) (s : State) : HostBlind (respond r) s :=
  ⟨s, [r], fun _ _ => rfl⟩

theorem raiseFault_hostBlind (c : FaultCause) (w : Word) (s : State) : HostBlind (raiseFault c w) s :=
  ⟨raiseFault c w s, [.fault], fun _ _ => rfl⟩

theorem writeBits_hostBlind (v : Bits) (s : State) : HostBlind (writeBits v) s :=
  ⟨writeBits v s, [.ok (.bits v)], fun _ _ => rfl⟩

/-- Answering with data that are read from the registers. -/
theorem answer_hostBlind {data : State → RespData} {s : State}
    (registers : ∀ pending responses, data (s.withHost pending responses) = data s) :
    HostBlind (fun s => respond (.ok (data s)) s) s :=
  (respond_hostBlind (.ok (data s)) s).congr fun pending responses => by rw [registers]

/-- Writing a bit string that is computed from the registers. -/
theorem write_hostBlind {v : State → Bits} {s : State}
    (registers : ∀ pending responses, v (s.withHost pending responses) = v s) :
    HostBlind (fun s => writeBits (v s) s) s :=
  (writeBits_hostBlind (v s) s).congr fun pending responses => by rw [registers]

theorem setFormat_hostBlind (d : RespData) (we : BitVec 4) (wm : BitVec 7) (s : State) :
    HostBlind (fun s => respond (.ok d) (setFormat we wm s)) s :=
  ⟨setFormat we wm s, [.ok d], fun _ _ => rfl⟩

/-- A check that reads registers alone takes the same branch whatever the host's lists. -/
theorem HostBlind.ite {check : State → Prop} [DecidablePred check] {pass fail : State → State} {s : State}
    (registers : ∀ pending responses, check (s.withHost pending responses) ↔ check s)
    (onPass : check s → HostBlind pass s) (onFail : ¬ check s → HostBlind fail s) :
    HostBlind (fun s => if check s then pass s else fail s) s := by
  by_cases h : check s
  · exact (onPass h).congr fun pending responses => if_pos ((registers pending responses).mpr h)
  · exact (onFail h).congr fun pending responses => if_neg (mt (registers pending responses).mp h)

theorem whenLive_hostBlind {action : State → State} {s : State} (h : HostBlind action s) :
    HostBlind (fun s => whenLive s action) s :=
  .ite (check := fun s => s.fault = true) (fun _ _ => .rfl) (fun _ => respond_hostBlind .halted s) fun _ => h

theorem whenReady_hostBlind {w : Word} {action : State → State} {s : State} (h : HostBlind action s) :
    HostBlind (fun s => whenReady w s action) s :=
  whenLive_hostBlind <| .ite (check := fun s => s.cfgv = true) (fun _ _ => .rfl) (fun _ => h)
    fun _ => raiseFault_hostBlind .notConfigured w s

theorem rejectCommand_hostBlind (w : Word) (s : State) : HostBlind (rejectCommand w) s :=
  whenLive_hostBlind (raiseFault_hostBlind .illegalCmd w s)

/-! The commands. -/

/-- ENCODE's answer to a token, once the text's length is accepted (rules R100, R108). -/
theorem encodeToken_hostBlind (text : Text) (s : State) :
    HostBlind (fun s => match encodeToken s.we s.wm (lex text) with
      | none => respond .inputError s
      | some v => writeBits (BitVec.ofNat 128 v) s) s := by
  cases token : encodeToken s.we s.wm (lex text) with
  | none =>
    refine (respond_hostBlind .inputError s).congr fun pending responses => ?_
    have : encodeToken (s.withHost pending responses).we (s.withHost pending responses).wm (lex text) = none := token
    simp only [this]
  | some v =>
    refine (writeBits_hostBlind (BitVec.ofNat 128 v) s).congr fun pending responses => ?_
    have : encodeToken (s.withHost pending responses).we (s.withHost pending responses).wm (lex text) = some v := token
    simp only [this]

/-- No command reads the host's lists. -/
theorem exec_hostBlind (i : Instr) (s : State) :
    ∃ action : State → State, (∀ u, exec i u = .next (action u)) ∧ HostBlind action s := by
  cases i with
  | config we wm =>
    exact ⟨_, fun _ => rfl, whenLive_hostBlind <| .ite (check := fun _ => legalFormat we.toNat wm.toNat = true)
      (fun _ _ => .rfl) (fun _ => setFormat_hostBlind _ _ _ s) fun _ => raiseFault_hostBlind .badFormat _ s⟩
  | encode text =>
    exact ⟨_, fun _ => rfl, whenReady_hostBlind <| .ite (check := fun _ => Config.textMax < text.length)
      (fun _ _ => .rfl) (fun _ => raiseFault_hostBlind .badLength _ s) fun _ => encodeToken_hostBlind text s⟩
  | ldbits payload =>
    exact ⟨_, fun _ => rfl, whenReady_hostBlind <| .ite (check := fun _ => payload.length ≠ 16) (fun _ _ => .rfl)
      (fun _ => raiseFault_hostBlind .badLength _ s) fun _ =>
        .ite (check := fun s => 2 ^ s.n ≤ bigEndian payload) (fun _ _ => .rfl)
          (fun _ => raiseFault_hostBlind .badValue _ s) fun _ => writeBits_hostBlind _ s⟩
  | toggle idx =>
    exact ⟨_, fun _ => rfl, whenReady_hostBlind <| .ite (check := fun s => s.n ≤ idx.toNat) (fun _ _ => .rfl)
      (fun _ => raiseFault_hostBlind .badIndex _ s) fun _ =>
        write_hostBlind fun _ _ => rfl⟩
  | setrange idx v =>
    exact ⟨_, fun _ => rfl, whenReady_hostBlind <| .ite (check := fun s => s.n ≤ idx.toNat) (fun _ _ => .rfl)
      (fun _ => raiseFault_hostBlind .badIndex _ s) fun _ =>
        write_hostBlind fun _ _ => rfl⟩
  | setall | invert =>
    exact ⟨_, fun _ => rfl, whenReady_hostBlind <| write_hostBlind fun _ _ => rfl⟩
  | rdfmt | decode | rdbits | grouped | hex | chars =>
    exact ⟨_, fun _ => rfl, whenReady_hostBlind <| answer_hostBlind fun _ _ => rfl⟩
  | rdstat => exact ⟨_, fun _ => rfl, answer_hostBlind fun _ _ => rfl⟩

/-- A step on a given move does one such action to the state without the move. -/
theorem step_hostBlind (move : HostMove) (s : State) : ∃ action : State → State, HostBlind action s
    ∧ ∀ u rest, u.pending = move :: rest → step u = .next (action { u with pending := rest }) := by
  cases move with
  | reset => exact ⟨hardwareReset, hardwareReset_hostBlind s, fun _ _ => step_reset⟩
  | command w payload =>
    cases decoded : decode w payload with
    | ok i =>
      obtain ⟨action, run, blind⟩ := exec_hostBlind i s
      exact ⟨action, blind, fun _ _ hp => (step_decoded hp decoded).trans (run _)⟩
    | error e => exact ⟨rejectCommand w, rejectCommand_hostBlind w s, fun _ _ hp => step_rejected hp decoded⟩

/-- Settles O58: the two states differ in the host's lists alone, and no move's action reads them. -/
theorem responseDependsOnRegistersAlone : Obligations.ResponseDependsOnRegistersAlone := by
  intro s s' t t' move rest rest' codec faults hp hp' hs hs'
  obtain ⟨action, ⟨u, rs, blind⟩, run⟩ := step_hostBlind move s
  have ht : t = u.withHost rest (s.responses ++ rs) := by
    have stepped := (run s rest hp).symm.trans hs
    cases stepped
    exact blind rest s.responses
  have ht' : t' = u.withHost rest' (s'.responses ++ rs) := by
    have stepped := (run s' rest' hp').symm.trans hs'
    cases stepped
    rw [eq_withHost_of_same codec faults]
    exact blind rest' s'.responses
  subst ht ht'
  exact ⟨⟨rfl, rfl, rfl, rfl⟩, ⟨rfl, rfl, rfl⟩, rs, rfl, rfl⟩

end Sys2Proof.Machine
end

section
/-! PROOFS. The integer renderer against rule R139 over ℚ, the size of what it gives, and the text that is laid out from it
(rules R139 to R143). -/

namespace Sys2Proof.Machine

/-! Render over ℚ. -/

theorem roundQ_mono {x y : ℚ} (h : x ≤ y) : roundQ x ≤ roundQ y :=
  Int.floor_le_floor (by linarith)

theorem roundQ_natCast (n : Nat) : roundQ n = n := by
  rw [roundQ, Int.floor_natCast_add, Int.floor_eq_zero_iff.mpr (by constructor <;> norm_num), add_zero]

/-- Scaled to its first digit, a positive value has `p` digits before the point (rule R139). -/
theorem scaled_decade {v : ℚ} (pos : 0 < v) {p : Nat} (hp : 0 < p) :
    10 ^ (p - 1) ≤ v * 10 ^ ((p : ℤ) - 1 - Int.log 10 v) ∧ v * 10 ^ ((p : ℤ) - 1 - Int.log 10 v) < 10 ^ p := by
  have scale : (0 : ℚ) < 10 ^ ((p : ℤ) - 1 - Int.log 10 v) := zpow_pos (by norm_num) _
  have low : (10 : ℚ) ^ Int.log 10 v ≤ v := by exact_mod_cast Int.zpow_log_le_self (by norm_num) pos
  have high : v < (10 : ℚ) ^ (Int.log 10 v + 1) := by exact_mod_cast Int.lt_zpow_succ_log_self (by norm_num) v
  constructor
  · calc (10 : ℚ) ^ (p - 1) = 10 ^ Int.log 10 v * 10 ^ ((p : ℤ) - 1 - Int.log 10 v) := by
          rw [← zpow_add₀ (by norm_num), ← zpow_natCast]; congr 1; omega
      _ ≤ _ := mul_le_mul_of_nonneg_right low scale.le
  · calc v * 10 ^ ((p : ℤ) - 1 - Int.log 10 v)
        < 10 ^ (Int.log 10 v + 1) * 10 ^ ((p : ℤ) - 1 - Int.log 10 v) := mul_lt_mul_of_pos_right high scale
      _ = 10 ^ p := by rw [← zpow_add₀ (by norm_num), ← zpow_natCast]; congr 1; omega

/-- Render gives exactly `p` digits: a carry to `p + 1` digits is taken into the exponent (rule R140). -/
theorem renderQ_digits {v : ℚ} (pos : 0 < v) {p : Nat} (hp : 0 < p) :
    10 ^ (p - 1) ≤ (renderQ v p).1 ∧ (renderQ v p).1 < 10 ^ p := by
  obtain ⟨low, high⟩ := scaled_decade pos hp
  have rounded_low := roundQ_mono low
  have rounded_high := roundQ_mono high.le
  have exact_low := roundQ_natCast (10 ^ (p - 1))
  have exact_high := roundQ_natCast (10 ^ p)
  push_cast at exact_low exact_high
  rw [exact_low] at rounded_low
  rw [exact_high] at rounded_high
  simp only [renderQ]
  split_ifs with carry
  · exact ⟨le_rfl, pow_lt_pow_right₀ (by norm_num) (by omega)⟩
  · exact ⟨rounded_low, lt_of_le_of_ne rounded_high carry⟩

/-- The decimal exponent is at least that of the value. -/
theorem le_renderQ_exp {v : ℚ} (p : Nat) {e : ℤ} (h : 10 ^ e ≤ v) : e ≤ (renderQ v p).2 := by
  have pos : 0 < v := (zpow_pos (by norm_num) e).trans_le h
  have log : e ≤ Int.log 10 v := (Int.zpow_le_iff_le_log (by norm_num) pos).mp (by exact_mod_cast h)
  simp only [renderQ]
  split_ifs
  · exact log.trans (by omega)
  · exact log

/-- Below twice a power of ten the rounded digits are far from a carry. -/
theorem roundQ_scaled_le {v : ℚ} {e : ℤ} (h : v ≤ 2 * 10 ^ e) {p : Nat} (hp : 0 < p) :
    roundQ (v * 10 ^ ((p : ℤ) - 1 - e)) ≤ 2 * 10 ^ (p - 1) := by
  have scaled : v * 10 ^ ((p : ℤ) - 1 - e) ≤ (2 * 10 ^ (p - 1) : ℕ) := by
    calc v * 10 ^ ((p : ℤ) - 1 - e)
        ≤ 2 * 10 ^ e * 10 ^ ((p : ℤ) - 1 - e) := mul_le_mul_of_nonneg_right h (zpow_pos (by norm_num) _).le
      _ = 2 * 10 ^ ((p - 1 : ℕ) : ℤ) := by rw [mul_assoc, ← zpow_add₀ (by norm_num)]; congr 2; omega
      _ = (2 * 10 ^ (p - 1) : ℕ) := by push_cast; rfl
  exact_mod_cast (roundQ_mono scaled).trans_eq (roundQ_natCast _)

/-- Below twice a power of ten no carry reaches the next exponent. -/
theorem renderQ_exp_le {v : ℚ} (pos : 0 < v) {p : Nat} (hp : 0 < p) {e : ℤ} (h : v ≤ 2 * 10 ^ e) :
    (renderQ v p).2 ≤ e := by
  have log : Int.log 10 v < e + 1 := by
    refine (Int.lt_zpow_iff_log_lt (by norm_num) pos).mp ?_
    rw [zpow_add_one₀ (by norm_num)]
    have := zpow_pos (show (0 : ℚ) < 10 by norm_num) e
    push_cast
    linarith
  simp only [renderQ]
  split_ifs with carry
  · have below : Int.log 10 v ≠ e := by
      rintro rfl
      have bound := roundQ_scaled_le h hp
      have ten : (10 : ℤ) ^ p = 10 ^ (p - 1) * 10 := by rw [← pow_succ, Nat.sub_add_cancel hp]
      have := pow_pos (show (0 : ℤ) < 10 by norm_num) (p - 1)
      rw [carry, ten] at bound
      linarith
    omega
  · omega

/-! The machine's renderer. -/

theorem roundedDigits_cast {v : Frac} (den : 0 < v.den) (p : Nat) (x10 : ℤ) :
    (roundedDigits v p x10 : ℤ) = roundQ (v.toRat * 10 ^ ((p : ℤ) - 1 - x10)) := by
  rw [roundedDigits, rnd_eq_floor (scaleBy_den_pos (by norm_num) _ den), scaleBy_toRat (by norm_num)]
  rfl

theorem render_cast {v : Frac} (num : 0 < v.num) (den : 0 < v.den) (p : Nat) :
    (((render v p).1 : ℤ), (render v p).2) = renderQ v.toRat p := by
  simp only [render, renderQ, floorLog_eq_log (b := 10) (by norm_num) num den, ← roundedDigits_cast den]
  by_cases carry : roundedDigits v p (Int.log (10 : ℕ) v.toRat) = 10 ^ p
  · rw [if_pos carry, if_pos (by exact_mod_cast carry)]
    simp
  · rw [if_neg carry, if_neg (by exact_mod_cast carry)]

theorem render_digits {v : Frac} (num : 0 < v.num) (den : 0 < v.den) {p : Nat} (hp : 0 < p) :
    10 ^ (p - 1) ≤ (render v p).1 ∧ (render v p).1 < 10 ^ p := by
  have pos : 0 < v.toRat := div_pos (by exact_mod_cast num) (by exact_mod_cast den)
  obtain ⟨low, high⟩ := renderQ_digits pos hp
  have digits : ((render v p).1 : ℤ) = (renderQ v.toRat p).1 := congrArg Prod.fst (render_cast num den p)
  rw [← digits] at low high
  exact ⟨by exact_mod_cast low, by exact_mod_cast high⟩

/-! The text. -/

/-- The sign of a text, as bytes (rules R141, R149). -/
theorem signText_eq (s : Bool) : signText s = if s then [0x2D] else [] := by
  cases s <;> rfl

theorem ascii_point : ascii "." = [0x2E] := by decide

theorem ascii_zero_point : ascii "0." = [0x30, 0x2E] := by decide

theorem ascii_e : ascii "e" = [0x65] := by decide

theorem ascii_plus : ascii "+" = [0x2B] := by decide

theorem ascii_minus : ascii "-" = [0x2D] := by decide

/-- For a coefficient of `p` digits the layout has the form that rules R141 and R142 give its exponent. -/
theorem layout_layoutText (s : Bool) {coef p : Nat} (x10 : ℤ) (hp : 0 < p) (low : 10 ^ (p - 1) ≤ coef)
    (high : coef < 10 ^ p) : LayoutText s coef x10 p (layout s coef x10 p) := by
  have digits := numeral_eq_decimalDigits p coef hp low high
  refine ⟨fun lower upper => ?_, fun last => ?_, fun lower upper => ?_, fun outside => ?_⟩
  · rw [layout, if_pos ⟨lower, upper⟩, digits, signText_eq, ascii_point]
  · rw [layout, if_neg (by omega), if_pos last, digits, signText_eq]
  · rw [layout, if_neg (by omega), if_neg (by omega), if_pos ⟨lower, upper⟩, digits, signText_eq, ascii_zero_point]
    rfl
  · rw [layout, if_neg (by omega), if_neg (by omega), if_neg (by omega), digits, signText_eq, ascii_point,
      decimalNumeral_eq_decimalDigits _ (by omega), ascii_e, ascii_plus, ascii_minus]
    split_ifs <;> simp

theorem signText_length_le (s : Bool) : (signText s).length ≤ 1 := by
  cases s <;> decide

/-- A decimal exponent of at most four digits makes a text of at most `p + 8` characters: a sign, `p` digits and a point,
and either the six zeros of `0.00000` or the `e`, its sign and four digits (rule R143). -/
theorem layout_length_le (s : Bool) (coef : Nat) {x10 : ℤ} {p : Nat} (hp : 0 < p) (h : x10.natAbs < 10 ^ 4) :
    (layout s coef x10 p).length ≤ p + 8 := by
  have sign := signText_length_le s
  have exponent : (decimalNumeral x10.natAbs).length ≤ 4 := by
    rw [decimalNumeral, numeral_length]
    exact Nat.log_lt_of_lt_pow' (by decide) h
  simp only [layout, ascii_point, ascii_zero_point, ascii_e, ascii_plus, ascii_minus]
  split_ifs <;> simp <;> omega

end Sys2Proof.Machine
end

section
/-! PROOFS. DECODE: the fields of each class, their ranges and their text (rules R72 to R74, R90 to R92, R130 to R143). -/

namespace Sys2Proof.Machine

/-! The classes (rule R90). -/

/-- The bit string is a Denormal or a Normal. -/
abbrev IsFinite (we wm : Nat) (b : Bits) : Prop := classOf we wm b = .denormal ∨ classOf we wm b = .normal

theorem classOf_infinity {we wm : Nat} {b : Bits} (ones : expField we wm b = eOnes we) (zero : manField wm b = 0) :
    classOf we wm b = .infinity := by
  rw [classOf, classify, if_pos ones, if_pos zero]

theorem classOf_nan {we wm : Nat} {b : Bits} (ones : expField we wm b = eOnes we) (nonzero : manField wm b ≠ 0) :
    classOf we wm b = .nan := by
  rw [classOf, classify, if_pos ones, if_neg nonzero]

theorem classOf_zero {we wm : Nat} {b : Bits} (we_pos : 0 < we) (zeroExp : expField we wm b = 0)
    (zeroMan : manField wm b = 0) : classOf we wm b = .zero := by
  have ones : expField we wm b ≠ eOnes we := by
    have := Nat.one_lt_two_pow we_pos.ne'
    rw [zeroExp, eOnes]
    omega
  rw [classOf, classify, if_neg ones, if_pos zeroExp, if_pos zeroMan]

theorem isFinite_iff {we wm : Nat} {b : Bits} :
    IsFinite we wm b ↔ expField we wm b ≠ eOnes we ∧ (expField we wm b ≠ 0 ∨ manField wm b ≠ 0) := by
  rw [IsFinite, classOf, classify]
  split_ifs <;> simp_all

theorem classOf_of_finite {we wm : Nat} {b : Bits} (finite : IsFinite we wm b) :
    classOf we wm b = if expField we wm b = 0 then .denormal else .normal := by
  obtain ⟨notOnes, notZero⟩ := isFinite_iff.mp finite
  rw [classOf, classify, if_neg notOnes]
  split_ifs <;> simp_all

/-! The numbers DECODE reads from a bit string, before they are cut to a field's width. -/

/-- The significand integer of a finite value (rules R92, R136). -/
abbrev sigOf (we wm : Nat) (b : Bits) : Nat := significand wm (expField we wm b) (manField wm b)

/-- The exponent of a finite value (rules R92, R137). -/
abbrev exp2Of (we wm : Nat) (b : Bits) : ℤ := exponent2 we wm (expField we wm b)

/-- The exact value of a finite bit string, without its sign (rule R92). -/
abbrev magnitudeOf (we wm : Nat) (b : Bits) : ℚ := dyadic (sigOf we wm b) (exp2Of we wm b)

/-- The digits and the decimal exponent of a finite value (rule R139). -/
abbrev digitsOf (we wm : Nat) (b : Bits) : Nat × ℤ :=
  render (scaledInt 2 (sigOf we wm b) (exp2Of we wm b)) (digitCount wm)

/-! DECODE's data by class (rules R132 to R137). -/

section
variable {we wm : Nat} {b : Bits}

theorem decodeBits_infinity (h : classOf we wm b = .infinity) : decodeBits we wm b
    = unrendered .infinity (signOf we wm b) (digitCount wm) (signText (signOf we wm b) ++ ascii "Infinity") := by
  simp only [decodeBits, h]

theorem decodeBits_nan (h : classOf we wm b = .nan) :
    decodeBits we wm b = unrendered .nan (signOf we wm b) (digitCount wm) (ascii "NaN") := by
  simp only [decodeBits, h]

theorem decodeBits_zero (h : classOf we wm b = .zero) :
    decodeBits we wm b = unrendered .zero (signOf we wm b) (digitCount wm) (ascii "0") := by
  simp only [decodeBits, h]

theorem decodeBits_finite (h : IsFinite we wm b) : decodeBits we wm b
    = rendered (classOf we wm b) (signOf we wm b) (sigOf we wm b)
        (exp2Of we wm b) (digitCount wm) := by
  obtain h | h := h <;> simp only [decodeBits, h]

/-- A bit string that is no Denormal or Normal is not rendered: its numeric fields are 0 and its text is a word. -/
theorem decodeBits_not_finite (h : ¬ IsFinite we wm b) : ∃ text : Text, text.length ≤ 9
    ∧ decodeBits we wm b = unrendered (classOf we wm b) (signOf we wm b) (digitCount wm) text := by
  have sign := signText_length_le (signOf we wm b)
  have word : (ascii "Infinity").length = 8 := by decide
  cases cls : classOf we wm b with
  | infinity => exact ⟨_, by rw [List.length_append]; omega, decodeBits_infinity cls⟩
  | nan => exact ⟨_, by decide, decodeBits_nan cls⟩
  | zero => exact ⟨_, by decide, decodeBits_zero cls⟩
  | denormal => exact absurd (.inl cls) h
  | normal => exact absurd (.inr cls) h

/-! The ranges of a finite value (rules R72, R92, R136, R137). -/

theorem manField_lt (wm : Nat) (b : Bits) : manField wm b < 2 ^ wm := Nat.mod_lt _ (Nat.two_pow_pos wm)

theorem expField_lt (we wm : Nat) (b : Bits) : expField we wm b < 2 ^ we := Nat.mod_lt _ (Nat.two_pow_pos we)

theorem significand_range (finite : IsFinite we wm b) :
    1 ≤ sigOf we wm b
      ∧ sigOf we wm b < 2 ^ (wm + 1) := by
  obtain ⟨-, notZero⟩ := isFinite_iff.mp finite
  have mantissa := manField_lt wm b
  rw [sigOf, significand, pow_succ]
  split_ifs with zero
  · have := notZero.resolve_left (not_not.mpr zero)
    omega
  · omega

theorem magnitudeOf_pos (finite : IsFinite we wm b) : 0 < magnitudeOf we wm b :=
  mul_pos (by exact_mod_cast (significand_range finite).1) (zpow_pos two_pos _)

theorem exponent2_range (we_ge : 2 ≤ we) (finite : IsFinite we wm b) :
    emin we - wm ≤ exp2Of we wm b ∧ exp2Of we wm b ≤ emax we - wm := by
  obtain ⟨notOnes, -⟩ := isFinite_iff.mp finite
  have field := expField_lt we wm b
  have bias_pos := one_le_bias we_ge
  have emax_bias := emax_eq_bias (we := we) (by omega)
  have top : (emax we : ℤ) + bias we + 1 = eOnes we := by rw [emax, eOnes_cast]; ring
  have ones : eOnes we = 2 ^ we - 1 := rfl
  rw [exp2Of, exponent2, emin]
  split_ifs <;> omega

section
variable (widths : LegalWidths we wm) (finite : IsFinite we wm b)
include widths finite

theorem significand_lt : sigOf we wm b < 2 ^ 113 :=
  (significand_range finite).2.trans_le (Nat.pow_le_pow_right two_pos (by omega))

theorem exponent2_bounds :
    -16494 ≤ exp2Of we wm b ∧ exp2Of we wm b ≤ 16381 := by
  obtain ⟨we_ge, we_le, wm_ge, wm_le⟩ := widths
  obtain ⟨low, high⟩ := exponent2_range we_ge finite
  have := bias_le we_le
  rw [emax_eq_bias (by omega)] at high
  rw [emin] at low
  omega

/-- A finite value lies between the smallest denormal and twice the largest power of two of the widest format. -/
theorem magnitudeOf_bounds :
    (2 : ℚ) ^ (-16494 : ℤ) ≤ magnitudeOf we wm b ∧ magnitudeOf we wm b < 2 ^ (16384 : ℤ) := by
  obtain ⟨sig_ge, sig_lt⟩ := significand_range finite
  obtain ⟨exp_ge, -⟩ := exponent2_bounds widths finite
  have exp_le := (exponent2_range widths.1 finite).2
  have top : emax we ≤ 16383 := by
    rw [emax_eq_bias (by omega)]
    exact_mod_cast bias_le widths.2.1
  constructor
  · calc (2 : ℚ) ^ (-16494 : ℤ) ≤ 2 ^ exp2Of we wm b := zpow_le_zpow_right₀ one_le_two exp_ge
      _ ≤ magnitudeOf we wm b := le_mul_of_one_le_left (zpow_pos two_pos _).le (by exact_mod_cast sig_ge)
  · calc magnitudeOf we wm b < 2 ^ (wm + 1) * 2 ^ exp2Of we wm b :=
          mul_lt_mul_of_pos_right (by exact_mod_cast sig_lt) (zpow_pos two_pos _)
      _ = 2 ^ ((wm : ℤ) + 1 + exp2Of we wm b) := by rw [zpow_add₀ two_ne_zero]; norm_cast
      _ ≤ 2 ^ (16384 : ℤ) := zpow_le_zpow_right₀ one_le_two (by omega)

end

/-! The digits of a finite value (rules R138 to R140). -/

theorem digitCount_cases (wm : Nat) : digitCount wm = 17 ∨ digitCount wm = 30 := by
  rw [digitCount]
  split_ifs <;> simp

theorem digitCount_pos (wm : Nat) : 0 < digitCount wm := by
  have := digitCount_cases wm
  omega

theorem scaledInt_num_pos {b m : Nat} (hb : 0 < b) (hm : 0 < m) (k : ℤ) : 0 < (scaledInt b m k).num := by
  cases k with
  | ofNat n => exact Nat.mul_pos hm (pow_pos hb n)
  | negSucc n => exact hm

/-- `10^-4966` is at most `2^-16494`, the smallest denormal of the widest format. -/
theorem ten_zpow_le_smallest : (10 : ℚ) ^ (-4966 : ℤ) ≤ 2 ^ (-16494 : ℤ) := by
  have h : 2 ^ 16494 ≤ 10 ^ 4966 := by decide +kernel
  rw [zpow_neg, zpow_neg]
  exact inv_anti₀ (zpow_pos two_pos _) (by exact_mod_cast h)

/-- `2^16384` is about `1.19 · 10^4932`. -/
theorem two_zpow_le_largest : (2 : ℚ) ^ (16384 : ℤ) ≤ 2 * 10 ^ (4932 : ℤ) := by
  have h : 2 ^ 16384 ≤ 2 * 10 ^ 4932 := by decide +kernel
  exact_mod_cast h

section
variable (finite : IsFinite we wm b)
include finite

theorem digitsOf_cast :
    (((digitsOf we wm b).1 : ℤ), (digitsOf we wm b).2) = renderQ (magnitudeOf we wm b) (digitCount wm) := by
  rw [digitsOf, render_cast (scaledInt_num_pos two_pos (significand_range finite).1 _) (scaledInt_den_pos two_pos _ _),
    scaledInt_toRat two_pos]
  rfl

theorem digitsOf_range : 10 ^ (digitCount wm - 1) ≤ (digitsOf we wm b).1
    ∧ (digitsOf we wm b).1 < 10 ^ digitCount wm :=
  render_digits (scaledInt_num_pos two_pos (significand_range finite).1 _) (scaledInt_den_pos two_pos _ _)
    (digitCount_pos wm)

/-- Thirty digits fit the field COEF (rule R72). -/
theorem digitsOf_lt : (digitsOf we wm b).1 < 2 ^ 100 := by
  refine (digitsOf_range finite).2.trans ?_
  obtain short | long := digitCount_cases wm
  · rw [short]; norm_num
  · rw [long]; norm_num

theorem digitsOf_exp_range (widths : LegalWidths we wm) :
    -4966 ≤ (digitsOf we wm b).2 ∧ (digitsOf we wm b).2 ≤ 4932 := by
  obtain ⟨low, high⟩ := magnitudeOf_bounds widths finite
  have exponent : (digitsOf we wm b).2 = (renderQ (magnitudeOf we wm b) (digitCount wm)).2 :=
    congrArg Prod.snd (digitsOf_cast finite)
  rw [exponent]
  exact ⟨le_renderQ_exp _ (ten_zpow_le_smallest.trans low),
    renderQ_exp_le (magnitudeOf_pos finite) (digitCount_pos wm) (high.le.trans two_zpow_le_largest)⟩

end

/-! DECODE's fields (rules R72 to R74). -/

/-- What the answers of all five classes share (rules R130, R131, R138). -/
theorem decodeBits_shared : (decodeBits we wm b).cls = classOf we wm b
    ∧ (decodeBits we wm b).sign = signOf we wm b ∧ (decodeBits we wm b).p = BitVec.ofNat 5 (digitCount wm) := by
  by_cases finite : IsFinite we wm b
  · rw [decodeBits_finite finite]
    exact ⟨rfl, rfl, rfl⟩
  · obtain ⟨text, -, data⟩ := decodeBits_not_finite finite
    rw [data]
    exact ⟨rfl, rfl, rfl⟩

theorem digitCount_field_toNat (wm : Nat) : (BitVec.ofNat 5 (digitCount wm)).toNat = digitCount wm := by
  obtain short | long := digitCount_cases wm
  · rw [short]; rfl
  · rw [long]; rfl

/-- The numeric fields of a finite value hold the numbers they were cut from (rule R72). -/
theorem decodeBits_numeric (widths : LegalWidths we wm) (finite : IsFinite we wm b) :
    (decodeBits we wm b).sig.toNat = sigOf we wm b
    ∧ (decodeBits we wm b).exp2.toInt = exp2Of we wm b ∧ (decodeBits we wm b).coef.toNat = (digitsOf we wm b).1
    ∧ (decodeBits we wm b).exp10.toInt = (digitsOf we wm b).2 := by
  obtain ⟨exp_ge, exp_le⟩ := exponent2_bounds widths finite
  obtain ⟨exp10_ge, exp10_le⟩ := digitsOf_exp_range finite widths
  rw [decodeBits_finite finite]
  refine ⟨Nat.mod_eq_of_lt (significand_lt widths finite),
    BitVec.toInt_ofInt_eq_self (by decide) (by omega) (by omega), Nat.mod_eq_of_lt (digitsOf_lt finite),
    BitVec.toInt_ofInt_eq_self (n := (digitsOf we wm b).2) (by decide) (by omega) (by omega)⟩

theorem decodeBits_text (finite : IsFinite we wm b) : (decodeBits we wm b).text
    = layout (signOf we wm b) (digitsOf we wm b).1 (digitsOf we wm b).2 (digitCount wm) := by
  rw [decodeBits_finite finite]
  rfl

/-- TLEN is at most 38 in every class (rule R143). -/
theorem decodeBits_text_length (widths : LegalWidths we wm) : (decodeBits we wm b).text.length ≤ 38 := by
  by_cases finite : IsFinite we wm b
  · obtain ⟨low, high⟩ := digitsOf_exp_range finite widths
    have p := digitCount_cases wm
    rw [decodeBits_text finite]
    have := layout_length_le (signOf we wm b) (digitsOf we wm b).1 (digitCount_pos wm)
      (x10 := (digitsOf we wm b).2) (by omega)
    omega
  · obtain ⟨text, length, data⟩ := decodeBits_not_finite finite
    rw [data]
    exact length.trans (by decide)

theorem textLen_toNat {t : Text} (h : t.length ≤ 255) : (textLen t).toNat = t.length :=
  Nat.mod_eq_of_lt (Nat.lt_succ_of_le h)

theorem FpClass.code_le (c : FpClass) : c.code.toNat ≤ 4 := by
  cases c <;> decide

end

/-- Settles O51: a finite value's numbers are in range, so its fields hold them, and the other classes have none. -/
theorem decodeFieldsStayInRange : Obligations.DecodeFieldsStayInRange := by
  intro we wm b widths
  have length := decodeBits_text_length (b := b) widths
  obtain ⟨cls, -, p⟩ := decodeBits_shared (we := we) (wm := wm) (b := b)
  refine ⟨?_, textLen_toNat (length.trans (by decide)), cls, FpClass.code_le _, ?_⟩
  · rw [p, digitCount_field_toNat]
  by_cases finite : IsFinite we wm b
  · rw [if_pos (cls ▸ finite.symm)]
    obtain ⟨sig_ge, -⟩ := significand_range finite
    obtain ⟨exp_ge, exp_le⟩ := exponent2_bounds widths finite
    obtain ⟨digits_ge, digits_lt⟩ := digitsOf_range finite
    exact ⟨decodeBits_numeric widths finite, sig_ge, significand_lt widths finite, exp_ge, exp_le, digits_ge, digits_lt,
      digitsOf_lt finite, digitsOf_exp_range finite widths⟩
  · obtain ⟨text, -, data⟩ := decodeBits_not_finite finite
    rw [if_neg (cls ▸ mt Or.symm finite), data]
    exact ⟨rfl, rfl, rfl, rfl⟩

/-! DECODE of a ready unit. -/

theorem exec_decode_of_data {s : State} {d : Decoded} (ready : s.Ready) (data : decodeBits s.we s.wm s.bits = d) :
    exec .decode s = .next (s.answered (.ok (.decoded d))) :=
  data ▸ decode_onlyAnswers s ready

/-- The answer of a class that is not rendered, field by field (rules R132 to R134, R138). -/
theorem unrendered_eq (cls : FpClass) (s : Bool) (wm : Nat) (text : Text) : unrendered cls s (digitCount wm) text =
    { cls := cls, sign := s, sig := 0, exp2 := 0, p := if wm ≤ 53 then 17 else 30, coef := 0, exp10 := 0,
      text := text } := by
  rw [unrendered, digitCount]
  split_ifs <;> rfl

/-- The text of an Infinity (rule R132). -/
theorem infinityText_eq (s : Bool) : signText s ++ ascii "Infinity" =
    if s then [0x2D, 0x49, 0x6E, 0x66, 0x69, 0x6E, 0x69, 0x74, 0x79]
    else [0x49, 0x6E, 0x66, 0x69, 0x6E, 0x69, 0x74, 0x79] := by
  cases s <;> decide

/-- Settles O36: the two fields give the class, and a class that is not rendered has a fixed text. -/
theorem decodeNamesInfinityNanZero : Obligations.DecodeNamesInfinityNanZero := by
  refine ⟨fun _ => rfl, rfl, rfl, rfl, fun s ready widths =>
    ⟨fun ones zero => ⟨rfl, ?_⟩, fun ones nonzero => ⟨rfl, ?_⟩, fun zeroExp zeroMan => ⟨rfl, ?_⟩⟩⟩
  · have data := decodeBits_infinity (classOf_infinity ones zero)
    rw [infinityText_eq] at data
    exact exec_decode_of_data ready (data.trans (unrendered_eq _ _ _ _))
  · exact exec_decode_of_data ready ((decodeBits_nan (classOf_nan ones nonzero)).trans (unrendered_eq _ _ _ _))
  · have cls := classOf_zero (two_pos.trans_le widths.1) zeroExp zeroMan
    exact exec_decode_of_data ready ((decodeBits_zero cls).trans (unrendered_eq _ _ _ _))

/-- Settles O37: the fields of a finite value hold its exact numbers, and the renderer and the layout meet rules R139 to
R142 on them. -/
theorem decodeGivesFiniteValues : Obligations.DecodeGivesFiniteValues := by
  intro s ready widths ef mf biasZ digits notOnes notZero
  have finite : IsFinite s.we s.wm s.bits := isFinite_iff.mpr ⟨notOnes, notZero⟩
  obtain ⟨sig, exp2, coef, exp10⟩ := decodeBits_numeric widths finite
  obtain ⟨cls, sign, p⟩ := decodeBits_shared (we := s.we) (wm := s.wm) (b := s.bits)
  obtain ⟨digits_ge, digits_lt⟩ := digitsOf_range finite
  rw [classOf_of_finite finite] at cls
  refine ⟨decodeBits s.we s.wm s.bits, decode_onlyAnswers s ready, cls, ?_, sign, sig, ?_, ?_, ?_, ?_⟩
  · rw [cls]
    exact apply_ite FpClass.code _ _ _
  · rw [exp2, exp2Of, exponent2, emin, bias_cast]
    rfl
  · rw [p, digitCount_field_toNat]
    rfl
  · rw [sig, exp2, coef, exp10]
    exact digitsOf_cast finite
  · rw [coef, exp10, decodeBits_text finite, sign]
    exact layout_layoutText _ _ (digitCount_pos s.wm) digits_ge digits_lt

end Sys2Proof.Machine
end

section
/-! PROOFS. The constants of the format: RDFMT (rule R88) and the four characteristic values of CHARS (rules R170 to R172). -/

namespace Sys2Proof.Machine

/-- Settles O23: every constant of a legal format fits its response field. -/
theorem rdfmtAnswersTheConstants : Obligations.RdfmtAnswersTheConstants := by
  intro s ready widths
  have ⟨we_ge, we_le, _, _⟩ := widths
  have bias_eq := biasField_toNat we_le
  refine ⟨biasField s.we, eminField s.we, emaxField s.we, nField s.we s.wm, bias_eq, ?_, ?_, nField_toNat widths,
    rdfmt_onlyAnswers s ready⟩
  · rw [eminField_toInt we_le, bias_eq, emin]
  · rw [emaxField_toNat we_ge we_le, bias_eq, emax]

/-! A characteristic value is rendered as a finite bit string's value is (rule R172). -/

theorem dyadic_pos {sig : Nat} (h : 0 < sig) (e : ℤ) : 0 < dyadic sig e :=
  mul_pos (by exact_mod_cast h) (zpow_pos two_pos e)

theorem renderDyadic_cast {sig : Nat} (h : 0 < sig) (e : ℤ) (p : Nat) :
    (((render (scaledInt 2 sig e) p).1 : ℤ), (render (scaledInt 2 sig e) p).2) = renderQ (dyadic sig e) p := by
  rw [render_cast (scaledInt_num_pos two_pos h e) (scaledInt_den_pos two_pos sig e), scaledInt_toRat two_pos]
  rfl

theorem renderDyadic_digits {sig : Nat} (h : 0 < sig) (e : ℤ) {p : Nat} (hp : 0 < p) :
    10 ^ (p - 1) ≤ (render (scaledInt 2 sig e) p).1 ∧ (render (scaledInt 2 sig e) p).1 < 10 ^ p :=
  render_digits (scaledInt_num_pos two_pos h e) (scaledInt_den_pos two_pos sig e) hp

/-- Between the smallest denormal and the largest normal of the widest format the decimal exponent fits EXP10. -/
theorem renderDyadic_exp_range {sig : Nat} {e : ℤ} {p : Nat} (pos : 0 < sig) (hp : 0 < p) (low : -16494 ≤ e)
    (high : dyadic sig e ≤ 2 ^ (16384 : ℤ)) :
    -4966 ≤ (render (scaledInt 2 sig e) p).2 ∧ (render (scaledInt 2 sig e) p).2 ≤ 4932 := by
  have smallest : (2 : ℚ) ^ (-16494 : ℤ) ≤ dyadic sig e :=
    (zpow_le_zpow_right₀ one_le_two low).trans
      (le_mul_of_one_le_left (zpow_pos two_pos e).le (by exact_mod_cast pos))
  have exponent : (render (scaledInt 2 sig e) p).2 = (renderQ (dyadic sig e) p).2 :=
    congrArg Prod.snd (renderDyadic_cast pos e p)
  rw [exponent]
  exact ⟨le_renderQ_exp p (ten_zpow_le_smallest.trans smallest),
    renderQ_exp_le (dyadic_pos pos e) hp (high.trans two_zpow_le_largest)⟩

/-- `P` digits fit the field COEF (rules R72, R138). -/
theorem ten_pow_digitCount_le (wm : Nat) : 10 ^ digitCount wm ≤ 2 ^ 100 := by
  obtain short | long := digitCount_cases wm
  · rw [short]; norm_num
  · rw [long]; norm_num

/-- The fields of a characteristic value lose nothing to their widths, and its text is the layout of its digits. -/
theorem characteristic_isCharacteristic {sig : Nat} {e : ℤ} (wm : Nat) (pos : 0 < sig) (fits : sig < 2 ^ 113)
    (low : -16494 ≤ e) (high : dyadic sig e ≤ 2 ^ (16384 : ℤ)) :
    IsCharacteristic sig e (digitCount wm) (characteristic sig e (digitCount wm)) := by
  have hp := digitCount_pos wm
  obtain ⟨digits_ge, digits_lt⟩ := renderDyadic_digits pos e hp
  obtain ⟨exp10_ge, exp10_le⟩ := renderDyadic_exp_range pos hp low high
  have exp_le : e ≤ 16384 := by
    refine (zpow_le_zpow_iff_right₀ (one_lt_two (α := ℚ))).mp (le_trans ?_ high)
    exact le_mul_of_one_le_left (zpow_pos two_pos e).le (by exact_mod_cast pos)
  have sig_eq : (characteristic sig e (digitCount wm)).sig.toNat = sig := Nat.mod_eq_of_lt fits
  have exp_eq : (characteristic sig e (digitCount wm)).exp2.toInt = e :=
    BitVec.toInt_ofInt_eq_self (by decide) (by omega) (by omega)
  have coef_eq : (characteristic sig e (digitCount wm)).coef.toNat = (render (scaledInt 2 sig e) (digitCount wm)).1 :=
    Nat.mod_eq_of_lt (digits_lt.trans_le (ten_pow_digitCount_le wm))
  have exp10_eq : (characteristic sig e (digitCount wm)).exp10.toInt = (render (scaledInt 2 sig e) (digitCount wm)).2 :=
    BitVec.toInt_ofInt_eq_self (by decide) (by omega) (by omega)
  refine ⟨sig_eq, exp_eq, ?_, ?_⟩
  · rw [coef_eq, exp10_eq, renderDyadic_cast pos]
  · rw [coef_eq, exp10_eq]
    exact layout_layoutText false _ hp digits_ge digits_lt

/-- A power of two within the widest format is a characteristic value. -/
theorem powerOfTwo_isCharacteristic {e : ℤ} (wm : Nat) (low : -16494 ≤ e) (high : e ≤ 16384) :
    IsCharacteristic 1 e (digitCount wm) (characteristic 1 e (digitCount wm)) := by
  refine characteristic_isCharacteristic wm one_pos (by norm_num) low ?_
  rw [dyadic, Nat.cast_one, one_mul]
  exact zpow_le_zpow_right₀ one_le_two high

/-- The largest normal value is below `2^(emax + 1)` (rule R171). -/
theorem maxNormal_le (wm : Nat) (e : ℤ) : dyadic (2 ^ (wm + 1) - 1) (e - wm) ≤ 2 ^ (e + 1) := by
  have sig : ((2 ^ (wm + 1) - 1 : ℕ) : ℚ) ≤ 2 ^ (wm + 1) := by exact_mod_cast Nat.sub_le _ _
  calc dyadic (2 ^ (wm + 1) - 1) (e - wm) ≤ 2 ^ (wm + 1) * 2 ^ (e - wm) :=
        mul_le_mul_of_nonneg_right sig (zpow_pos two_pos _).le
    _ = 2 ^ (e + 1) := by rw [← zpow_natCast, ← zpow_add₀ two_ne_zero]; congr 1; push_cast; ring

/-- Settles O32: each of the four values lies between the smallest denormal and the largest normal of the widest
format. -/
theorem charsGivesTheCharacteristics : Obligations.CharsGivesTheCharacteristics := by
  intro s ready ⟨we_ge, we_le, wm_ge, wm_le⟩ biasZ digits
  have bias_eq : (bias s.we : ℤ) = biasZ := bias_cast s.we
  have bias_top := bias_le we_le
  have emax_eq : emax s.we = 2 ^ s.we - 2 - biasZ := by rw [emax, bias_eq]
  have emin_eq : emin s.we = 1 - biasZ := by rw [emin, bias_eq]
  have emax_bias := emax_eq_bias (we := s.we) (by omega)
  have one_le := one_le_bias we_ge
  refine ⟨biasField s.we, BitVec.ofNat 5 (digitCount s.wm), epsilonOf s.wm, maxNormalOf s.we s.wm, minNormalOf s.we s.wm,
    minDenormalOf s.we s.wm, ?_, digitCount_field_toNat s.wm, ?_, ?_, ?_, ?_, chars_onlyAnswers s ready⟩
  · rw [biasField_toNat we_le, bias_eq]
  · exact powerOfTwo_isCharacteristic s.wm (by omega) (by omega)
  · rw [← emax_eq]
    have pos := Nat.one_lt_two_pow (n := s.wm + 1) (by omega)
    have fits : 2 ^ (s.wm + 1) ≤ 2 ^ 113 := Nat.pow_le_pow_right two_pos (by omega)
    refine characteristic_isCharacteristic s.wm (by omega) (by omega) (by omega) ((maxNormal_le s.wm _).trans ?_)
    exact zpow_le_zpow_right₀ one_le_two (by omega)
  · rw [← emin_eq]
    exact powerOfTwo_isCharacteristic s.wm (by rw [emin]; omega) (by rw [emin]; omega)
  · rw [← emin_eq]
    exact powerOfTwo_isCharacteristic s.wm (by rw [emin]; omega) (by rw [emin]; omega)

end Sys2Proof.Machine
end

section
/-! PROOFS. The non-negative values of a format in the order of their patterns (rules R92, R93), and DECODE's exact value as
one of them. -/

namespace Sys2Proof.Machine

/-! The values by binade: the denormals and the first normal binade share the spacing of binade 0. -/

/-- The distance between neighbouring values of binade `e`, the one of exponent `emin + e` (rule R92). -/
def spacing (we wm e : Nat) : ℚ := 2 ^ (emin we - wm + e)

theorem spacing_pos (we wm e : Nat) : 0 < spacing we wm e := zpow_pos two_pos _

/-- The grid in the model's own constants (rules R92, R93). -/
theorem gridValue_eq (we wm k : Nat) : gridValue we wm k = dyadic (significand wm (k / 2 ^ wm) (k % 2 ^ wm))
    (exponent2 we wm (k / 2 ^ wm)) := by
  simp only [gridValue, significand, exponent2, emin, bias_cast]
  split_ifs <;> simp_all

theorem gridValue_denormal (we : Nat) {wm m : Nat} (h : m < 2 ^ wm) : gridValue we wm m = m * spacing we wm 0 := by
  rw [gridValue_eq, Nat.div_eq_of_lt h, Nat.mod_eq_of_lt h, significand, exponent2, if_pos rfl, if_pos rfl, dyadic,
    spacing, Nat.cast_zero, add_zero]

theorem gridValue_normal (we e : Nat) {wm r : Nat} (h : r < 2 ^ wm) :
    gridValue we wm ((e + 1) * 2 ^ wm + r) = (2 ^ wm + r : ℕ) * spacing we wm e := by
  have field : ((e + 1) * 2 ^ wm + r) / 2 ^ wm = e + 1 := by
    rw [mul_comm, Nat.mul_add_div (Nat.two_pow_pos wm), Nat.div_eq_of_lt h, add_zero]
  have mantissa : ((e + 1) * 2 ^ wm + r) % 2 ^ wm = r := by
    rw [mul_comm, Nat.mul_add_mod, Nat.mod_eq_of_lt h]
  rw [gridValue_eq, field, mantissa, significand, exponent2, if_neg e.succ_ne_zero, if_neg e.succ_ne_zero, dyadic,
    spacing, emin]
  congr 2
  push_cast
  ring

/-- A value of binade `e` is its significand times the spacing, and the carry to the next binade is no exception. -/
theorem gridValue_binade (we : Nat) {wm e m : Nat} (low : e = 0 ∨ 2 ^ wm ≤ m) (high : m ≤ 2 ^ (wm + 1)) :
    gridValue we wm (e * 2 ^ wm + m) = m * spacing we wm e := by
  obtain denormal | normal := lt_or_ge m (2 ^ wm)
  · obtain rfl : e = 0 := low.resolve_right (not_le.mpr denormal)
    rw [zero_mul, zero_add, gridValue_denormal we denormal]
  obtain ⟨r, rfl⟩ := Nat.exists_eq_add_of_le normal
  obtain inside | carry := lt_or_ge r (2 ^ wm)
  · rw [← add_assoc, ← Nat.succ_mul, gridValue_normal we e inside]
  · obtain rfl : r = 2 ^ wm := by rw [pow_succ] at high; omega
    have next := gridValue_normal we (e + 1) (Nat.two_pow_pos wm)
    have pattern : e * 2 ^ wm + (2 ^ wm + 2 ^ wm) = (e + 1 + 1) * 2 ^ wm + 0 := by ring
    have double : spacing we wm (e + 1) = 2 * spacing we wm e := by
      rw [spacing, spacing, Nat.cast_succ, ← add_assoc, zpow_add_one₀ two_ne_zero, mul_comm]
    rw [pattern, next, double]
    push_cast
    ring

/-- Every magnitude lies in a binade. -/
theorem exists_binade (wm k : Nat) : ∃ e m, k = e * 2 ^ wm + m ∧ (e = 0 ∨ 2 ^ wm ≤ m) ∧ m < 2 ^ (wm + 1) := by
  have mantissa := Nat.mod_lt k (Nat.two_pow_pos wm)
  have split := Nat.div_add_mod' k (2 ^ wm)
  have double : 2 ^ (wm + 1) = 2 ^ wm + 2 ^ wm := by ring
  cases field : k / 2 ^ wm with
  | zero => exact ⟨0, k % 2 ^ wm, by rw [← field, split], .inl rfl, by omega⟩
  | succ e =>
    refine ⟨e, 2 ^ wm + k % 2 ^ wm, ?_, .inr (by omega), by omega⟩
    rw [← add_assoc, ← Nat.succ_mul, Nat.succ_eq_add_one, ← field, split]

/-- Neighbouring values of a binade differ by its spacing, the value after its last among them. -/
theorem gridValue_succ (we : Nat) {wm e m : Nat} (low : e = 0 ∨ 2 ^ wm ≤ m) (high : m < 2 ^ (wm + 1)) :
    gridValue we wm (e * 2 ^ wm + m + 1) = gridValue we wm (e * 2 ^ wm + m) + spacing we wm e := by
  rw [add_assoc, gridValue_binade we low high.le, gridValue_binade we (low.imp_right Nat.le_succ_of_le) high]
  push_cast
  ring

theorem gridValue_strictMono (we wm : Nat) : StrictMono (gridValue we wm) := by
  refine strictMono_nat_of_lt_succ fun k => ?_
  obtain ⟨e, m, rfl, low, high⟩ := exists_binade wm k
  rw [gridValue_succ we low high]
  exact lt_add_of_pos_right _ (spacing_pos we wm e)

/-! DECODE's exact value. -/

section
variable {we wm : Nat}

theorem decodedMagnitude_of_finite {b : Bits} (widths : LegalWidths we wm) (finite : IsFinite we wm b) :
    decodedMagnitude we wm b = magnitudeOf we wm b := by
  obtain ⟨sig, exp2, -, -⟩ := decodeBits_numeric widths finite
  rw [decodedMagnitude, sig, exp2]

theorem decodedMagnitude_of_not_finite {b : Bits} (h : ¬ IsFinite we wm b) : decodedMagnitude we wm b = 0 := by
  obtain ⟨text, -, data⟩ := decodeBits_not_finite h
  rw [decodedMagnitude, data]
  exact zero_mul _

/-- The exponent field in the low `N − 1` bits of a pattern (rule R24). -/
theorem magnitude_div (b : Bits) : b.toNat % 2 ^ (we + wm) / 2 ^ wm = expField we wm b := by
  rw [add_comm we, pow_add, Nat.mod_mul_right_div_self, expField]

/-- The mantissa field in the low `N − 1` bits of a pattern (rule R24). -/
theorem magnitude_mod (b : Bits) : b.toNat % 2 ^ (we + wm) % 2 ^ wm = manField wm b := by
  rw [add_comm we, pow_add, Nat.mod_mul_right_mod, manField]

theorem magnitudeOf_eq_gridValue (b : Bits) : magnitudeOf we wm b = gridValue we wm (b.toNat % 2 ^ (we + wm)) := by
  rw [gridValue_eq, magnitude_div, magnitude_mod]

/-- Without its sign a Zero, Denormal or Normal decodes to the value of its low `N − 1` bits. -/
theorem decodedMagnitude_eq_gridValue {b : Bits} (widths : LegalWidths we wm) (notOnes : expField we wm b ≠ eOnes we) :
    decodedMagnitude we wm b = gridValue we wm (b.toNat % 2 ^ (we + wm)) := by
  rw [← magnitudeOf_eq_gridValue]
  by_cases finite : IsFinite we wm b
  · exact decodedMagnitude_of_finite widths finite
  · have zero : expField we wm b = 0 ∧ manField wm b = 0 := by
      simpa [notOnes] using mt isFinite_iff.mpr finite
    rw [decodedMagnitude_of_not_finite finite, magnitudeOf, sigOf, zero.1, zero.2, significand, if_pos rfl, dyadic,
      Nat.cast_zero, zero_mul]

/-- The register holds a number of at most 128 bits as it is (rule R23). -/
theorem toNat_ofNat_of_lt {v n : Nat} (width : n ≤ 128) (h : v < 2 ^ n) : (BitVec.ofNat 128 v).toNat = v :=
  Nat.mod_eq_of_lt (h.trans_le (Nat.pow_le_pow_right two_pos width))

/-- Magnitudes up to the Infinity pattern leave the sign bit free. -/
theorem lt_two_pow_of_le_infinity {m : Nat} (h : m ≤ (2 ^ we - 1) * 2 ^ wm) : m < 2 ^ (we + wm) := by
  rw [pow_add]
  exact h.trans_lt (Nat.mul_lt_mul_of_pos_right (Nat.sub_lt (Nat.two_pow_pos we) one_pos) (Nat.two_pow_pos wm))

/-- A pattern below that of Infinity decodes to the value of its magnitude (rule R93). -/
theorem decodedMagnitude_ofNat {k : Nat} (widths : LegalWidths we wm) (h : k < (2 ^ we - 1) * 2 ^ wm) :
    decodedMagnitude we wm (BitVec.ofNat 128 k) = gridValue we wm k := by
  have exp_lt : k / 2 ^ wm < 2 ^ we - 1 := Nat.div_lt_of_lt_mul (by rwa [mul_comm])
  have low := lt_two_pow_of_le_infinity h.le
  have fits := toNat_ofNat_of_lt (by omega) low
  have notOnes : expField we wm (BitVec.ofNat 128 k) ≠ eOnes we := by
    rw [expField, fits, eOnes, Nat.mod_eq_of_lt (exp_lt.trans_le (Nat.sub_le _ _))]
    exact exp_lt.ne
  rw [decodedMagnitude_eq_gridValue widths notOnes, fits, Nat.mod_eq_of_lt low]

end

/-- Settles O56: below the Infinity pattern DECODE's value is the grid's, which grows strictly. -/
theorem finiteValuesIncrease : Obligations.FiniteValuesIncrease := by
  intro we wm k k' widths less finite
  rw [decodedMagnitude_ofNat widths (less.trans finite), decodedMagnitude_ofNat widths finite]
  exact gridValue_strictMono we wm less

theorem two_pow_mul_spacing (we wm e : Nat) : 2 ^ wm * spacing we wm e = 2 ^ (emin we + e) := by
  rw [spacing, ← zpow_natCast, ← zpow_add₀ two_ne_zero]
  congr 1
  ring

/-- The last value of a binade, all ones in its mantissa, is a spacing short of the next power of two. -/
theorem gridValue_binade_last (we wm e : Nat) : gridValue we wm ((e + 1) * 2 ^ wm + (2 ^ wm - 1))
    = (2 - 2 ^ (-(wm : ℤ))) * 2 ^ (emin we + e) := by
  have unit : (2 : ℚ) ^ wm * 2 ^ (-(wm : ℤ)) = 1 := by
    rw [← zpow_natCast, ← zpow_add₀ two_ne_zero, add_neg_cancel, zpow_zero]
  have wm_pow := Nat.two_pow_pos wm
  rw [gridValue_normal we e (by omega), ← two_pow_mul_spacing, Nat.cast_add, Nat.cast_sub wm_pow]
  push_cast
  linear_combination spacing we wm e * unit

/-- The first value of a binade is a power of two. -/
theorem gridValue_binade_first (we wm e : Nat) : gridValue we wm ((e + 1) * 2 ^ wm) = 2 ^ (emin we + e) := by
  rw [← two_pow_mul_spacing, ← add_zero ((e + 1) * 2 ^ wm), gridValue_normal we e (Nat.two_pow_pos wm), add_zero]
  push_cast
  rfl

/-- The last finite binade has exponent field `EONES − 1` and exponent `emax` (rules R82, R84). -/
theorem exists_top_binade {we : Nat} (we_ge : 2 ≤ we) : ∃ e : Nat, 2 ^ we = e + 3 ∧ emin we + e = emax we := by
  obtain ⟨e, he⟩ := Nat.exists_eq_add_of_le' (show 3 ≤ 2 ^ we from
    le_trans (by decide) (Nat.pow_le_pow_right two_pos we_ge))
  have cast : (2 : ℤ) ^ we = e + 3 := by exact_mod_cast he
  exact ⟨e, he, by rw [emin, emax, cast]; ring⟩

/-- Settles O55: the four patterns are the ends of the denormals, the start of the first normal binade and the end of the
last. -/
theorem extremePatternValues : Obligations.ExtremePatternValues := by
  intro we wm widths biasZ value
  have emin_eq : emin we = 1 - biasZ := by rw [emin, bias_cast]
  have emax_eq : emax we = 2 ^ we - 2 - biasZ := by rw [emax, bias_cast]
  have value_eq (k : Nat) (h : k < (2 ^ we - 1) * 2 ^ wm) : value k = gridValue we wm k := decodedMagnitude_ofNat widths h
  have smallest : spacing we wm 0 = 2 ^ (1 - biasZ - wm) := by rw [spacing, emin_eq, Nat.cast_zero, add_zero]
  obtain ⟨e, field, top⟩ := exists_top_binade widths.1
  have one_lt : 1 < 2 ^ wm := Nat.one_lt_two_pow (by omega)
  have infinity : (2 ^ we - 1) * 2 ^ wm = (e + 1) * 2 ^ wm + 2 ^ wm := by rw [← Nat.succ_mul]; congr 1; omega
  have first_le : 2 ^ wm ≤ (e + 1) * 2 ^ wm := Nat.le_mul_of_pos_left _ e.succ_pos
  refine ⟨?_, ?_, ?_, ?_⟩
  · rw [show 2 ^ we - 2 = e + 1 by omega, value_eq _ (by omega), gridValue_binade_last, top, emax_eq]
  · have first := gridValue_binade_first we wm 0
    rw [zero_add, one_mul, Nat.cast_zero, add_zero, emin_eq] at first
    rw [value_eq _ (by omega), first]
  · rw [value_eq _ (by omega), gridValue_denormal we (by omega), smallest, Nat.cast_sub one_lt.le]
    push_cast
    rfl
  · rw [value_eq _ (by omega), gridValue_denormal we one_lt, smallest, Nat.cast_one, one_mul]

end Sys2Proof.Machine
end

section
/-! PROOFS. EncodeValue as rounding to the nearest value of the format, the larger on a tie (rule R121), and the exact round
trip that follows from it (rule R122). -/

namespace Sys2Proof.Machine

/-! The sign (rule R123). -/

/-- The carry of rule R117 is the carry of the addition `ef · 2^wm + Mraw`. -/
theorem assembleQ_eq (we wm : Nat) (s : Bool) (ef mRaw : ℤ) :
    assembleQ we wm s ef mRaw = (if s then 2 ^ (we + wm) else 0) + ef * 2 ^ wm + mRaw := by
  simp only [assembleQ]
  generalize (if s then 2 ^ (we + wm) else 0 : ℤ) = sign
  split_ifs with carry top
  · linear_combination (-2 ^ wm : ℤ) * top - carry
  · linear_combination -carry
  · rfl

theorem encodeQ_sign (we wm : Nat) (s : Bool) (d : ℚ) :
    encodeQ we wm s d = s.toNat * 2 ^ (we + wm) + encodeQ we wm false d := by
  cases s with
  | false => simp
  | true =>
    simp only [encodeQ, assembleQ_eq, if_true, Bool.false_eq_true, if_false, Bool.toNat_true, Nat.cast_one]
    split_ifs <;> ring

/-! Rounding to the values of a format. -/

/-- `d` rounds to magnitude `m`: it is below the midpoint of `m`'s value with every larger value, and not below the midpoint
with any smaller one, so that a tie goes to the larger (rule R121). -/
def RoundsTo (we wm : Nat) (d : ℚ) (m : Nat) : Prop :=
  (∀ k, m < k → 2 * d < gridValue we wm m + gridValue we wm k)
    ∧ ∀ k, k < m → gridValue we wm k + gridValue we wm m ≤ 2 * d

section
variable {we wm m : Nat} {d : ℚ}

/-- The midpoints with the two neighbours are enough. -/
theorem roundsTo_of_neighbours (above : 2 * d < gridValue we wm m + gridValue we wm (m + 1))
    (below : ∀ m₀, m = m₀ + 1 → gridValue we wm m₀ + gridValue we wm m ≤ 2 * d) : RoundsTo we wm d m := by
  have mono := (gridValue_strictMono we wm).monotone
  constructor
  · intro k greater
    linarith [mono (Nat.succ_le_of_lt greater)]
  · intro k less
    obtain ⟨m₀, rfl⟩ := Nat.exists_eq_add_one_of_ne_zero (Nat.ne_zero_of_lt less)
    linarith [mono (Nat.le_of_lt_succ less), below m₀ rfl]

/-- What a number rounds to is nearest to it among all the format's values (rule R121). -/
theorem RoundsTo.nearest (h : RoundsTo we wm d m) (k : Nat) :
    |d - gridValue we wm m| < |d - gridValue we wm k|
      ∨ (|d - gridValue we wm m| = |d - gridValue we wm k| ∧ gridValue we wm k ≤ gridValue we wm m) := by
  have mono := gridValue_strictMono we wm
  obtain less | rfl | greater := lt_trichotomy k m
  · have midpoint := h.2 k less
    have up := mono less
    have near : |d - gridValue we wm m| ≤ |d - gridValue we wm k| := by
      rw [abs_le, abs_of_nonneg (by linarith)]
      constructor <;> linarith
    exact near.lt_or_eq.imp_right fun eq => ⟨eq, up.le⟩
  · exact .inr ⟨rfl, le_rfl⟩
  · have midpoint := h.1 k greater
    have up := mono greater
    left
    rw [abs_lt, abs_of_nonpos (by linarith)]
    constructor <;> linarith

/-- A value of the format rounds to itself. -/
theorem roundsTo_self (we wm m : Nat) : RoundsTo we wm (gridValue we wm m) m := by
  have mono := gridValue_strictMono we wm
  exact ⟨fun k greater => by linarith [mono greater], fun k less => by linarith [mono less]⟩

/-- A number rounds to one magnitude only. -/
theorem RoundsTo.unique {m' : Nat} (h : RoundsTo we wm d m) (h' : RoundsTo we wm d m') : m = m' := by
  obtain less | eq | greater := lt_trichotomy m m'
  · linarith [h.1 m' less, h'.2 m less]
  · exact eq
  · linarith [h'.1 m greater, h.2 m' greater]

/-- A number of at most a value of the format rounds to no more than that. -/
theorem RoundsTo.le {k : Nat} (h : RoundsTo we wm d m) (bound : d ≤ gridValue we wm k) : m ≤ k := by
  by_contra more
  linarith [h.2 k (not_le.mp more), gridValue_strictMono we wm (not_le.mp more)]

end

/-! EncodeValue rounds. -/

theorem roundQ_eq_iff {x : ℚ} {n : ℤ} : roundQ x = n ↔ (2 * n - 1 : ℚ) ≤ 2 * x ∧ 2 * x < 2 * n + 1 := by
  rw [roundQ, Int.floor_eq_iff]
  constructor <;> rintro ⟨low, high⟩ <;> exact ⟨by linarith, by linarith⟩

/-- Rounding a quotient, in multiples of the divisor. -/
theorem roundQ_div_eq_iff {d u : ℚ} (pos : 0 < u) {n : ℤ} :
    roundQ (d / u) = n ↔ (2 * n - 1) * u ≤ 2 * d ∧ 2 * d < (2 * n + 1) * u := by
  rw [roundQ_eq_iff, mul_div_assoc', le_div_iff₀ pos, div_lt_iff₀ pos]

/-- A number of binade `e` has a rounded significand of binade `e`, the carry included (rules R112, R115, R117). -/
theorem rounded_significand_range {we wm e m : Nat} {d : ℚ} (low : e = 0 ∨ 2 ^ wm * spacing we wm e ≤ d)
    (high : d < 2 ^ (wm + 1) * spacing we wm e) (round : roundQ (d / spacing we wm e) = m) :
    (e = 0 ∨ 2 ^ wm ≤ m) ∧ m ≤ 2 ^ (wm + 1) := by
  have pos := spacing_pos we wm e
  constructor
  · refine low.imp_right fun low => ?_
    have scaled : ((2 ^ wm : ℕ) : ℚ) ≤ d / spacing we wm e := by rw [le_div_iff₀ pos]; exact_mod_cast low
    have rounded := roundQ_mono scaled
    rw [roundQ_natCast, round] at rounded
    exact_mod_cast rounded
  · have rounded := roundQ_le_two_pow (wm := wm + 1) ((div_le_iff₀ pos).mpr high.le)
    rw [round] at rounded
    exact_mod_cast rounded

/-- Rounding a number's quotient by its binade's spacing rounds the number: the neighbours are a spacing away, but for the
one below the binade's first value and the one above the value after its last, on whose far side the number is not. -/
theorem roundsTo_of_binade {we wm e m : Nat} {d : ℚ} (low : e = 0 ∨ 2 ^ wm * spacing we wm e ≤ d)
    (high : d < 2 ^ (wm + 1) * spacing we wm e) (round : roundQ (d / spacing we wm e) = m) :
    RoundsTo we wm d (e * 2 ^ wm + m) := by
  obtain ⟨m_low, m_high⟩ := rounded_significand_range low high round
  have value := gridValue_binade we m_low m_high
  have mono := gridValue_strictMono we wm
  obtain ⟨round_low, round_high⟩ := (roundQ_div_eq_iff (spacing_pos we wm e)).mp round
  push_cast at round_low round_high
  refine roundsTo_of_neighbours ?_ ?_
  · obtain inside | top := lt_or_eq_of_le m_high
    · rw [gridValue_succ we m_low inside, value]
      linarith
    · have top_value : gridValue we wm (e * 2 ^ wm + m) = 2 ^ (wm + 1) * spacing we wm e := by
        rw [value, top]; push_cast; rfl
      linarith [mono (e * 2 ^ wm + m).lt_succ_self]
  · intro m₀ pred
    by_cases bottom : e = 0 ∨ 2 ^ wm < m
    · obtain ⟨n, rfl⟩ : ∃ n, m = n + 1 := ⟨m - 1, by rcases bottom with rfl | h <;> omega⟩
      obtain rfl : e * 2 ^ wm + n = m₀ := by omega
      have prev := gridValue_succ we (m := n) (bottom.imp_right Nat.le_of_lt_succ) m_high
      rw [← add_assoc] at value ⊢
      push_cast at value round_low
      linarith
    · obtain ⟨e_pos, m_le⟩ := not_or.mp bottom
      have bottom_value : gridValue we wm (e * 2 ^ wm + m) = 2 ^ wm * spacing we wm e := by
        rw [value, (m_low.resolve_left e_pos).antisymm' (not_lt.mp m_le)]; push_cast; rfl
      linarith [mono (show m₀ < e * 2 ^ wm + m by omega), low.resolve_left e_pos]

/-- The denormal path rounds in binade 0 (rule R112). -/
theorem encodeQ_of_denormal {we wm : Nat} {d : ℚ} (pos : 0 < d) (h : Int.log 2 d < emin we) :
    encodeQ we wm false d = roundQ (d / spacing we wm 0) := by
  have scale : d * 2 ^ ((wm : ℤ) - emin we) = d / spacing we wm 0 := by
    rw [spacing, div_eq_mul_inv, ← zpow_neg]
    congr 2
    ring
  rw [encodeQ_eq, if_neg pos.ne', if_pos h, scale, assembleQ_eq, patZero_cast, zero_mul, if_neg Bool.false_ne_true,
    zero_add, zero_add]
  split_ifs with zero
  · exact zero.symm
  · rfl

/-- The normal path rounds in the binade of the exponent (rule R115). -/
theorem encodeQ_of_normal {we wm e : Nat} {d : ℚ} (pos : 0 < d) (h : Int.log 2 d = emin we + e)
    (top : Int.log 2 d ≤ emax we) : encodeQ we wm false d = e * 2 ^ wm + roundQ (d / spacing we wm e) := by
  have fraction : (d / 2 ^ Int.log 2 d - 1) * 2 ^ wm = d / spacing we wm e - (2 ^ wm : ℤ) := by
    have := (spacing_pos we wm e).ne'
    rw [h, ← two_pow_mul_spacing]
    push_cast
    field_simp
  have mantissa : roundQ (d / spacing we wm e - (2 ^ wm : ℤ)) = roundQ (d / spacing we wm e) - 2 ^ wm := by
    rw [roundQ, roundQ, sub_add_eq_add_sub, Int.floor_sub_intCast]
  rw [encodeQ_eq, if_neg pos.ne', if_neg (by omega), if_neg (by omega), assembleQ_eq, fraction, mantissa, h, emin]
  simp only [Bool.false_eq_true, if_false]
  ring

/-- Below `2^(emax + 1)` EncodeValue rounds to a magnitude of the format (rules R112, R115, R121). -/
theorem encodeQ_roundsTo {we wm : Nat} {d : ℚ} (pos : 0 < d) (below : d < 2 ^ (emax we + 1)) :
    ∃ m : Nat, encodeQ we wm false d = m ∧ RoundsTo we wm d m := by
  have log_top : Int.log 2 d ≤ emax we :=
    Int.lt_add_one_iff.mp ((Int.lt_zpow_iff_log_lt one_lt_two pos).mp (by exact_mod_cast below))
  have rounded (e : Nat) : ∃ n : Nat, roundQ (d / spacing we wm e) = n := by
    refine Int.eq_ofNat_of_zero_le (Int.floor_nonneg.mpr ?_)
    have := div_pos pos (spacing_pos we wm e)
    linarith
  obtain denormal | normal := lt_or_ge (Int.log 2 d) (emin we)
  · obtain ⟨n, hn⟩ := rounded 0
    have high : d < 2 ^ (wm + 1) * spacing we wm 0 := by
      have bound := (Int.lt_zpow_iff_log_lt one_lt_two pos).mpr denormal
      have bottom := two_pow_mul_spacing we wm 0
      have := mul_pos (pow_pos two_pos wm) (spacing_pos we wm 0)
      rw [Nat.cast_zero, add_zero] at bottom
      push_cast at bound
      rw [pow_succ]
      linarith
    refine ⟨0 * 2 ^ wm + n, ?_, roundsTo_of_binade (.inl rfl) high hn⟩
    rw [encodeQ_of_denormal pos denormal, hn, zero_mul, zero_add]
  · obtain ⟨e, log⟩ := Int.le.dest normal
    obtain ⟨n, hn⟩ := rounded e
    have low : 2 ^ wm * spacing we wm e ≤ d := by
      rw [two_pow_mul_spacing, log]
      exact_mod_cast Int.zpow_log_le_self one_lt_two pos
    have high : d < 2 ^ (wm + 1) * spacing we wm e := by
      rw [pow_succ', mul_assoc, two_pow_mul_spacing, log, ← zpow_one_add₀ two_ne_zero, add_comm]
      exact_mod_cast Int.lt_zpow_succ_log_self one_lt_two d
    refine ⟨e * 2 ^ wm + n, ?_, roundsTo_of_binade (.inr low) high hn⟩
    rw [encodeQ_of_normal pos log.symm log_top, hn]
    push_cast
    rfl

/-- The point that stands for Infinity is `2^(emax + 1)` (rule R121). -/
theorem gridValue_infinity {we wm : Nat} (widths : LegalWidths we wm) :
    gridValue we wm ((2 ^ we - 1) * 2 ^ wm) = 2 ^ (emax we + 1) := by
  obtain ⟨e, field, top⟩ := exists_top_binade widths.1
  rw [show 2 ^ we - 1 = e + 1 + 1 by omega, gridValue_binade_first, ← top]
  push_cast
  rw [add_assoc]

/-- The encoder's answer for a positive decimal number: the sign bit, and the magnitude that the number, capped at the point
for Infinity, rounds to (rules R119, R121, R123). -/
theorem encodeDecimal_roundsTo {we wm coef : Nat} (x : ℤ) (widths : LegalWidths we wm) (pos : 0 < coef) :
    ∃ m ≤ (2 ^ we - 1) * 2 ^ wm,
      RoundsTo we wm (min (decimal coef x) (gridValue we wm ((2 ^ we - 1) * 2 ^ wm))) m
        ∧ ∀ s, encodeDecimal we wm s coef x = s.toNat * 2 ^ (we + wm) + m := by
  have value_pos : 0 < decimal coef x := mul_pos (by exact_mod_cast pos) (zpow_pos (by norm_num) x)
  have point := gridValue_infinity widths
  obtain ⟨m, magnitude, rounds⟩ : ∃ m : Nat, encodeQ we wm false (decimal coef x) = m
      ∧ RoundsTo we wm (min (decimal coef x) (gridValue we wm ((2 ^ we - 1) * 2 ^ wm))) m := by
    obtain below | overflow := lt_or_ge (decimal coef x) (gridValue we wm ((2 ^ we - 1) * 2 ^ wm))
    · rw [min_eq_left below.le]
      exact encodeQ_roundsTo value_pos (point ▸ below)
    · rw [min_eq_right overflow]
      refine ⟨_, ?_, roundsTo_self we wm _⟩
      rw [encodeQ_of_ge widths false (point ▸ overflow), patInf, packFields, eOnes, Bool.toNat_false, zero_mul, zero_add,
        add_zero]
  refine ⟨m, rounds.le (min_le_right _ _), rounds, fun s => ?_⟩
  have exact_rule := encoderFollowsTheExactRule we wm s coef x widths
  rw [encodeQ_sign, magnitude] at exact_rule
  exact_mod_cast exact_rule

/-- Settles O39: the encoder's magnitude is the one the capped number rounds to. -/
theorem encodedValueIsNearest : Obligations.EncodedValueIsNearest := by
  intro we wm coef x widths pos top d m
  obtain ⟨m', le_top, rounds, encoded⟩ := encodeDecimal_roundsTo x widths pos
  have magnitude : m = m' := by
    simp only [m, encodedMagnitude, encoded, Bool.toNat_false, zero_mul, zero_add]
    exact Nat.mod_eq_of_lt (lt_two_pow_of_le_infinity le_top)
  rw [magnitude]
  exact ⟨le_top, fun k _ => rounds.nearest k⟩

/-! The round trip (rule R122). -/

/-- A dyadic rational is a decimal one: a negative power of two is a power of five over a power of ten. -/
theorem exists_decimal_eq_dyadic (sig : Nat) (e : ℤ) : ∃ coef x, decimal coef x = dyadic sig e := by
  cases e with
  | ofNat n => exact ⟨sig * 2 ^ n, 0, by simp [decimal, dyadic]⟩
  | negSucc n =>
    refine ⟨sig * 5 ^ (n + 1), Int.negSucc n, ?_⟩
    have ten : (10 : ℚ) ^ (n + 1) = 5 ^ (n + 1) * 2 ^ (n + 1) := by rw [← mul_pow]; norm_num
    rw [decimal, dyadic, zpow_negSucc, zpow_negSucc, ten]
    push_cast
    field_simp

/-- A bit string is its sign bit and its magnitude (rules R9, R24). -/
theorem toNat_eq_sign_add {we wm : Nat} {b : Bits} (h : b.toNat < 2 ^ totalBits we wm) :
    b.toNat = (signOf we wm b).toNat * 2 ^ (we + wm) + b.toNat % 2 ^ (we + wm) := by
  have sign : (signOf we wm b).toNat = b.toNat / 2 ^ (we + wm) := by
    have quotient : b.toNat / 2 ^ (we + wm) < 2 := by
      rw [Nat.div_lt_iff_lt_mul (Nat.two_pow_pos _), ← pow_succ']
      exact h.trans_eq (by rw [totalBits]; congr 1; ring)
    have position : totalBits we wm - 1 - 0 = we + wm := by rw [totalBits]; omega
    rw [signOf, bitAt, position, BitVec.getLsbD, Nat.toNat_testBit, Nat.mod_eq_of_lt quotient]
  rw [sign, Nat.div_add_mod']

/-- The magnitude of a Zero, Denormal or Normal is below the Infinity pattern's. -/
theorem magnitude_lt_infinity {we wm : Nat} {b : Bits} (notOnes : expField we wm b ≠ eOnes we) :
    b.toNat % 2 ^ (we + wm) < (2 ^ we - 1) * 2 ^ wm := by
  have field := expField_lt we wm b
  rw [← Nat.div_lt_iff_lt_mul (Nat.two_pow_pos wm), magnitude_div]
  rw [eOnes] at notOnes
  omega

/-- Settles O41: a value of the format rounds to itself and to nothing else. -/
theorem encodeInvertsTheValue : Obligations.EncodeInvertsTheValue := by
  intro we wm b widths fits finite
  have ⟨notOnes, _⟩ := isFinite_iff.mp finite
  refine ⟨exists_decimal_eq_dyadic _ _, fun coef x value => ?_⟩
  have coef_pos : 0 < coef := by
    refine Nat.pos_of_ne_zero fun zero => (magnitudeOf_pos finite).ne ?_
    rw [← decodedMagnitude_of_finite widths finite, ← value, zero, decimal, Nat.cast_zero, zero_mul]
  have below := gridValue_strictMono we wm (magnitude_lt_infinity notOnes)
  obtain ⟨m, -, rounds, encoded⟩ := encodeDecimal_roundsTo x widths coef_pos
  rw [value, decodedMagnitude_eq_gridValue widths notOnes, min_eq_left below.le] at rounds
  rw [encoded, rounds.unique (roundsTo_self we wm _)]
  exact (toNat_eq_sign_add fits).symm

end Sys2Proof.Machine
end

section
/-! PROOFS. How many bit strings of a format have each class (rule R91): a bit string is its sign and its two fields. -/

namespace Sys2Proof.Machine

section
variable {we wm : Nat}

/-- A bit string is packed from its own fields (rules R9, R24). -/
theorem packFields_fields {b : Bits} (h : b.toNat < 2 ^ totalBits we wm) :
    packFields we wm (signOf we wm b) (expField we wm b) (manField wm b) = b.toNat := by
  conv_rhs => rw [toNat_eq_sign_add h, add_comm we wm, pow_add, Nat.mod_mul]
  rw [packFields, expField, manField, add_comm we wm, pow_add]
  ring

/-- Fields of their widths are read back from the bit string packed from them. -/
theorem fields_packFields {s : Bool} {ef mf : Nat} (width : totalBits we wm ≤ 128) (exp : ef < 2 ^ we)
    (man : mf < 2 ^ wm) :
    signOf we wm (BitVec.ofNat 128 (packFields we wm s ef mf)) = s
      ∧ expField we wm (BitVec.ofNat 128 (packFields we wm s ef mf)) = ef
      ∧ manField wm (BitVec.ofNat 128 (packFields we wm s ef mf)) = mf := by
  have total := packFields_lt s exp man
  have fits := toNat_ofNat_of_lt width total
  have split : packFields we wm s ef mf = 2 ^ wm * (2 ^ we * s.toNat + ef) + mf := by rw [packFields, pow_add]; ring
  have mantissa : manField wm (BitVec.ofNat 128 (packFields we wm s ef mf)) = mf := by
    rw [manField, fits, split, Nat.mul_add_mod, Nat.mod_eq_of_lt man]
  have exponent : expField we wm (BitVec.ofNat 128 (packFields we wm s ef mf)) = ef := by
    rw [expField, fits, split, Nat.mul_add_div (Nat.two_pow_pos wm), Nat.div_eq_of_lt man, add_zero, Nat.mul_add_mod,
      Nat.mod_eq_of_lt exp]
  refine ⟨?_, exponent, mantissa⟩
  have whole := packFields_fields (we := we) (wm := wm) (b := BitVec.ofNat 128 (packFields we wm s ef mf)) (by rwa [fits])
  rw [fits, exponent, mantissa] at whole
  generalize signOf we wm _ = sign at whole ⊢
  rw [packFields, packFields, add_left_inj, add_left_inj] at whole
  have bit := Nat.eq_of_mul_eq_mul_right (Nat.two_pow_pos _) whole
  cases s <;> simpa using bit

end

/-- The exponent fields and the mantissa fields of each class (rules R84, R90). -/
def classFields (we wm : Nat) : FpClass → Finset Nat × Finset Nat
  | .zero => ({0}, {0})
  | .infinity => ({eOnes we}, {0})
  | .nan => ({eOnes we}, Finset.Ico 1 (2 ^ wm))
  | .denormal => ({0}, Finset.Ico 1 (2 ^ wm))
  | .normal => (Finset.Ico 1 (eOnes we), Finset.range (2 ^ wm))

section
variable {we wm : Nat}

theorem eOnes_pos (h : 0 < we) : 0 < eOnes we := Nat.sub_pos_of_lt (Nat.one_lt_two_pow h.ne')

theorem mem_classFields_classify {ef mf : Nat} (exp : ef < 2 ^ we) (man : mf < 2 ^ wm) :
    ef ∈ (classFields we wm (classify we ef mf)).1 ∧ mf ∈ (classFields we wm (classify we ef mf)).2 := by
  have top : ef < eOnes we + 1 := by rw [eOnes]; omega
  rw [classify]
  split_ifs with ones zeroMan zeroExp zeroMan
  · simp [classFields, ones, zeroMan]
  · simp [classFields, ones, man]; omega
  · simp [classFields, zeroExp, zeroMan]
  · simp [classFields, zeroExp, man]; omega
  · simp [classFields, man]; omega

theorem classify_of_mem_classFields {ef mf : Nat} {c : FpClass} (we_pos : 0 < we) (exp : ef ∈ (classFields we wm c).1)
    (man : mf ∈ (classFields we wm c).2) : classify we ef mf = c := by
  have ones_ne := (eOnes_pos we_pos).ne
  cases c <;> simp only [classFields, Finset.mem_singleton, Finset.mem_Ico, Finset.mem_range] at exp man
  case zero => rw [exp, man, classify, if_neg ones_ne, if_pos rfl, if_pos rfl]
  case infinity => rw [exp, man, classify, if_pos rfl, if_pos rfl]
  case nan => rw [exp, classify, if_pos rfl, if_neg (by omega)]
  case denormal => rw [exp, classify, if_neg ones_ne, if_pos rfl, if_neg (by omega)]
  case normal => rw [classify, if_neg (by omega), if_neg (by omega)]

theorem classOf_eq_iff (we_pos : 0 < we) (b : Bits) (c : FpClass) : classOf we wm b = c
    ↔ expField we wm b ∈ (classFields we wm c).1 ∧ manField wm b ∈ (classFields we wm c).2 := by
  constructor
  · rintro rfl
    exact mem_classFields_classify (expField_lt we wm b) (manField_lt wm b)
  · rintro ⟨exp, man⟩
    exact classify_of_mem_classFields we_pos exp man

theorem classFields_lt {ef mf : Nat} {c : FpClass} (exp : ef ∈ (classFields we wm c).1)
    (man : mf ∈ (classFields we wm c).2) : ef < 2 ^ we ∧ mf < 2 ^ wm := by
  have ones := eOnes_lt we
  have mantissas := Nat.two_pow_pos wm
  cases c <;> simp [classFields] at exp man <;> omega

/-- A class holds one bit string for each sign and each choice of its fields. -/
theorem card_class (c : FpClass) (widths : LegalWidths we wm) :
    ((Finset.range (2 ^ totalBits we wm)).filter fun b => classOf we wm (BitVec.ofNat 128 b) = c).card
      = 2 * ((classFields we wm c).1.card * (classFields we wm c).2.card) := by
  have width : totalBits we wm ≤ 128 := by rw [totalBits]; omega
  have we_pos : 0 < we := two_pos.trans_le widths.1
  rw [← Fintype.card_bool, ← Finset.card_univ, ← Finset.card_product, ← Finset.card_product]
  refine Finset.card_nbij'
    (fun b => (signOf we wm (BitVec.ofNat 128 b), expField we wm (BitVec.ofNat 128 b), manField wm (BitVec.ofNat 128 b)))
    (fun f => packFields we wm f.1 f.2.1 f.2.2) ?_ ?_ ?_ ?_
  · intro b hb
    simpa [classOf_eq_iff we_pos] using (Finset.mem_filter.mp hb).2
  · rintro ⟨s, ef, mf⟩ hf
    obtain ⟨exp, man⟩ : ef ∈ (classFields we wm c).1 ∧ mf ∈ (classFields we wm c).2 := by simpa using hf
    obtain ⟨exp_lt, man_lt⟩ := classFields_lt exp man
    obtain ⟨-, exp_eq, man_eq⟩ := fields_packFields (s := s) width exp_lt man_lt
    simp [classOf_eq_iff we_pos, exp_eq, man_eq, exp, man, packFields_lt s exp_lt man_lt]
  · intro b hb
    have low := Finset.mem_range.mp (Finset.mem_filter.mp hb).1
    have fits := toNat_ofNat_of_lt width low
    have packed := packFields_fields (b := BitVec.ofNat 128 b) (by rwa [fits])
    rwa [fits] at packed
  · rintro ⟨s, ef, mf⟩ hf
    obtain ⟨exp, man⟩ : ef ∈ (classFields we wm c).1 ∧ mf ∈ (classFields we wm c).2 := by simpa using hf
    obtain ⟨exp_lt, man_lt⟩ := classFields_lt exp man
    obtain ⟨sign_eq, exp_eq, man_eq⟩ := fields_packFields (s := s) width exp_lt man_lt
    simp only [sign_eq, exp_eq, man_eq]

end

/-- Settles O54: each class's count is twice the number of its fields. -/
theorem classCounts : Obligations.ClassCounts := by
  intro we wm widths count
  have zero : count .zero = 2 := (card_class .zero widths).trans (by simp [classFields])
  have infinity : count .infinity = 2 := (card_class .infinity widths).trans (by simp [classFields])
  have nan : count .nan = 2 * (2 ^ wm - 1) := (card_class .nan widths).trans (by simp [classFields])
  have denormal : count .denormal = 2 * (2 ^ wm - 1) := (card_class .denormal widths).trans (by simp [classFields])
  have normal : count .normal = 2 * (2 ^ we - 2) * 2 ^ wm :=
    (card_class .normal widths).trans (by simp [classFields, eOnes, Nat.sub_sub, mul_assoc])
  refine ⟨zero, infinity, nan, denormal, normal, ?_⟩
  obtain ⟨e, he⟩ := Nat.exists_eq_add_of_le (Nat.pow_le_pow_right two_pos widths.1 : 2 ^ 2 ≤ 2 ^ we)
  obtain ⟨m, hm⟩ := Nat.exists_eq_add_of_le (Nat.one_le_two_pow : 1 ≤ 2 ^ wm)
  have exps : 2 ^ we - 2 = 2 + e := by omega
  have mans : 2 ^ wm - 1 = m := by omega
  rw [zero, infinity, nan, denormal, normal, totalBits, add_assoc, pow_add, pow_add, exps, mans, he, hm]
  ring

end Sys2Proof.Machine
end

section
/-! PROOFS. The encoder on every decimal number, zero among them: its sign bit (rule R123), its order (rule R128), its
two thresholds (rule R121), and the class that the special tokens keep (rule R124). -/

namespace Sys2Proof.Machine

section
variable {we wm : Nat}

theorem gridValue_zero (we wm : Nat) : gridValue we wm 0 = 0 := by
  rw [gridValue_denormal we (Nat.two_pow_pos wm), Nat.cast_zero, zero_mul]

theorem decimal_zero (x : ℤ) : decimal 0 x = 0 := by
  rw [decimal, Nat.cast_zero, zero_mul]

theorem encodeDecimal_zero (we wm : Nat) (s : Bool) (x : ℤ) : encodeDecimal we wm s 0 x = patZero we wm s := by
  rw [encodeDecimal, if_pos rfl]

theorem gridValue_top_nonneg (we wm : Nat) : 0 ≤ gridValue we wm ((2 ^ we - 1) * 2 ^ wm) := by
  rw [← gridValue_zero we wm]
  exact (gridValue_strictMono we wm).monotone (Nat.zero_le _)

/-- The encoder's answer, as `encodeDecimal_roundsTo` gives it for positive numbers, for zero too. -/
theorem encodeDecimal_rounds (coef : Nat) (x : ℤ) (widths : LegalWidths we wm) :
    ∃ m ≤ (2 ^ we - 1) * 2 ^ wm,
      RoundsTo we wm (min (decimal coef x) (gridValue we wm ((2 ^ we - 1) * 2 ^ wm))) m
        ∧ ∀ s, encodeDecimal we wm s coef x = s.toNat * 2 ^ (we + wm) + m := by
  obtain rfl | pos := Nat.eq_zero_or_pos coef
  · refine ⟨0, Nat.zero_le _, ?_, fun s => ?_⟩
    · rw [decimal_zero, min_eq_left (gridValue_top_nonneg we wm), ← gridValue_zero we wm]
      exact roundsTo_self we wm 0
    · rw [encodeDecimal_zero, patZero, packFields, zero_mul, add_zero]
  · exact encodeDecimal_roundsTo x widths pos

/-- The low `N − 1` bits of an answer are its magnitude. -/
theorem sign_add_mod {m : Nat} (s : Bool) (h : m ≤ (2 ^ we - 1) * 2 ^ wm) :
    (s.toNat * 2 ^ (we + wm) + m) % 2 ^ (we + wm) = m := by
  rw [Nat.mul_add_mod_self_right, Nat.mod_eq_of_lt (lt_two_pow_of_le_infinity h)]

end

/-- Settles O42: both signs have the same magnitude, which leaves the first bit free. -/
theorem encodeSignSymmetry : Obligations.EncodeSignSymmetry := by
  intro we wm coef x widths
  obtain ⟨m, le_top, -, encoded⟩ := encodeDecimal_rounds coef x widths
  have positive : encodeDecimal we wm false coef x = m := by rw [encoded, Bool.toNat_false, zero_mul, zero_add]
  have negative : encodeDecimal we wm true coef x = 2 ^ (we + wm) + m := by rw [encoded, Bool.toNat_true, one_mul]
  exact ⟨positive ▸ lt_two_pow_of_le_infinity le_top, by rw [negative, positive]⟩

section
variable {we wm : Nat}

/-- Rounding keeps the order: two numbers cannot stand on the wrong sides of one midpoint. -/
theorem RoundsTo.mono {m m' : Nat} {d d' : ℚ} (h : RoundsTo we wm d m) (h' : RoundsTo we wm d' m') (le : d ≤ d') :
    m ≤ m' := by
  by_contra more
  linarith [h.2 m' (not_le.mp more), h'.1 m (not_le.mp more)]

end

/-- Settles O43: the magnitudes are what the capped numbers round to, and both the cap and rounding keep the order. -/
theorem encodeIsMonotone : Obligations.EncodeIsMonotone := by
  intro we wm coef₁ coef₂ x₁ x₂ s widths le
  obtain ⟨m₁, le_top₁, rounds₁, encoded₁⟩ := encodeDecimal_rounds coef₁ x₁ widths
  obtain ⟨m₂, le_top₂, rounds₂, encoded₂⟩ := encodeDecimal_rounds coef₂ x₂ widths
  rw [encoded₁, encoded₂, sign_add_mod s le_top₁, sign_add_mod s le_top₂]
  exact rounds₁.mono rounds₂ (min_le_min_right _ le)

/-! The thresholds (rule R121). -/

section
variable {we wm : Nat}

/-- A number rounds to at most `k` exactly below the midpoint of `k`'s value and the next one. -/
theorem RoundsTo.le_iff {m : Nat} {d : ℚ} (h : RoundsTo we wm d m) (k : Nat) :
    m ≤ k ↔ 2 * d < gridValue we wm k + gridValue we wm (k + 1) := by
  have mono := (gridValue_strictMono we wm).monotone
  constructor
  · intro le
    linarith [h.1 (k + 1) (Nat.lt_succ_of_le le), mono le]
  · intro below
    by_contra more
    have next : k + 1 ≤ m := Nat.lt_of_not_le more
    linarith [h.2 k next, mono next]

/-- Capping a number at a value of the format moves it past no midpoint below that value. -/
theorem two_mul_min_lt_iff {k top : Nat} (h : k < top) (d : ℚ) :
    2 * min d (gridValue we wm top) < gridValue we wm k + gridValue we wm (k + 1)
      ↔ 2 * d < gridValue we wm k + gridValue we wm (k + 1) := by
  have mono := gridValue_strictMono we wm
  have low := mono h
  have high := mono.monotone (Nat.succ_le_of_lt h)
  obtain inside | capped := le_total d (gridValue we wm top)
  · rw [min_eq_left inside]
  · rw [min_eq_right capped]
    constructor <;> intro <;> linarith

/-- The midpoint of zero and the smallest denormal. -/
theorem midpoint_zero (wm_pos : 0 < wm) :
    gridValue we wm 0 + gridValue we wm (0 + 1) = 2 * 2 ^ (emin we - wm - 1) := by
  rw [gridValue_zero, zero_add, zero_add, gridValue_denormal we (Nat.one_lt_two_pow wm_pos.ne'), Nat.cast_one, one_mul,
    spacing, Nat.cast_zero, add_zero, ← zpow_one_add₀ two_ne_zero, add_sub_cancel]

/-- The midpoint of the largest normal value and the point that stands for Infinity. -/
theorem midpoint_top {k : Nat} (widths : LegalWidths we wm) (h : k + 1 = (2 ^ we - 1) * 2 ^ wm) :
    gridValue we wm k + gridValue we wm (k + 1) = 2 * ((2 - 2 ^ (-((wm : ℤ) + 1))) * 2 ^ emax we) := by
  obtain ⟨e, field, top⟩ := exists_top_binade widths.1
  have largest : k = (e + 1) * 2 ^ wm + (2 ^ wm - 1) := by
    have := Nat.two_pow_pos wm
    rw [show 2 ^ we - 1 = e + 1 + 1 by omega, Nat.succ_mul] at h
    omega
  have half : (2 : ℚ) ^ (-(wm : ℤ)) = 2 * 2 ^ (-((wm : ℤ) + 1)) := by
    rw [← zpow_one_add₀ two_ne_zero]
    congr 1
    ring
  rw [h, gridValue_infinity widths, largest, gridValue_binade_last, top, half, zpow_add_one₀ two_ne_zero]
  ring

/-- Strictly between Zero's magnitude and Infinity's there are Denormals and Normals only (rule R90). -/
theorem classify_between {m : Nat} (nonzero : m ≠ 0) (below : m < (2 ^ we - 1) * 2 ^ wm) :
    classify we (m / 2 ^ wm) (m % 2 ^ wm) = .denormal ∨ classify we (m / 2 ^ wm) (m % 2 ^ wm) = .normal := by
  have notOnes : m / 2 ^ wm ≠ eOnes we := (Nat.div_lt_of_lt_mul (by rwa [mul_comm])).ne
  rw [classify, if_neg notOnes]
  split_ifs with zeroExp zeroMan
  · have split := Nat.div_add_mod' m (2 ^ wm)
    rw [zeroExp, zeroMan, zero_mul] at split
    exact absurd split.symm nonzero
  · exact .inl rfl
  · exact .inr rfl

end

/-- Settles O40: the magnitude is 0 below the first midpoint and Infinity from the last midpoint on. -/
theorem encoderThresholds : Obligations.EncoderThresholds := by
  intro we wm coef x widths _ biasZ d m
  obtain ⟨m', le_top, rounds, encoded⟩ := encodeDecimal_rounds coef x widths
  have magnitude : m = m' := (congrArg (· % 2 ^ (we + wm)) (encoded false)).trans (sign_add_mod false le_top)
  have emin_eq : emin we = 1 - biasZ := by rw [emin, bias_cast]
  have emax_eq : emax we = 2 ^ we - 2 - biasZ := by rw [emax, bias_cast]
  obtain ⟨last, last_eq⟩ : ∃ last, (2 ^ we - 1) * 2 ^ wm = last + 1 := by
    refine Nat.exists_eq_add_one_of_ne_zero (Nat.mul_ne_zero ?_ (Nat.two_pow_pos wm).ne')
    exact (eOnes_pos (two_pos.trans_le widths.1)).ne'
  have zero_iff : m' ≤ 0 ↔ d < 2 ^ (1 - biasZ - wm - 1) := by
    rw [rounds.le_iff, two_mul_min_lt_iff (by omega), midpoint_zero (by omega), emin_eq]
    exact mul_lt_mul_iff_right₀ two_pos
  have finite_iff : m' ≤ last ↔ d < (2 - 2 ^ (-((wm : ℤ) + 1))) * 2 ^ (2 ^ we - 2 - biasZ) := by
    rw [rounds.le_iff, two_mul_min_lt_iff (by omega), midpoint_top widths last_eq.symm, emax_eq]
    exact mul_lt_mul_iff_right₀ two_pos
  rw [magnitude]
  refine ⟨Nat.le_zero.symm.trans zero_iff, ?_, fun nonzero notTop => ?_⟩
  · rw [← not_lt, ← finite_iff]
    omega
  · exact classify_between nonzero (lt_of_le_of_ne le_top notTop)

/-! The special tokens (rule R124). -/

section
variable {we wm : Nat}

/-- DECODE gives a pattern packed from the fields of a class that class and the pattern's sign. -/
theorem decodeBits_packFields {s : Bool} {ef mf : Nat} {c : FpClass} (widths : LegalWidths we wm)
    (exp : ef ∈ (classFields we wm c).1) (man : mf ∈ (classFields we wm c).2) :
    (decodeBits we wm (BitVec.ofNat 128 (packFields we wm s ef mf))).cls = c
      ∧ (decodeBits we wm (BitVec.ofNat 128 (packFields we wm s ef mf))).sign = s := by
  obtain ⟨exp_lt, man_lt⟩ := classFields_lt exp man
  obtain ⟨sign_eq, exp_eq, man_eq⟩ := fields_packFields (s := s) (by rw [totalBits]; omega) exp_lt man_lt
  obtain ⟨cls, sign, -⟩ :=
    decodeBits_shared (we := we) (wm := wm) (b := BitVec.ofNat 128 (packFields we wm s ef mf))
  rw [cls, sign, classOf, exp_eq, man_eq]
  exact ⟨classify_of_mem_classFields (two_pos.trans_le widths.1) exp man, sign_eq⟩

end

/-- Settles O44: the patterns of rule R89 have the fields of their class. -/
theorem tokensKeepTheirClass : Obligations.TokensKeepTheirClass := by
  intro we wm s x widths keeps
  have ⟨_, _, wm_ge, _⟩ := widths
  have wm_pow : 2 ^ 2 ≤ 2 ^ wm := Nat.pow_le_pow_right two_pos wm_ge
  have nanMantissa : 2 ^ wm - 1 ∈ Finset.Ico 1 (2 ^ wm) := Finset.mem_Ico.mpr ⟨by omega, by omega⟩
  have zero : encodeToken we wm (.number s 0 x) = some (patZero we wm s) := congrArg some (encodeDecimal_zero we wm s x)
  exact ⟨⟨_, rfl, decodeBits_packFields widths (Finset.mem_singleton_self _) (Finset.mem_singleton_self _)⟩,
    ⟨_, rfl, decodeBits_packFields widths (Finset.mem_singleton_self _) nanMantissa⟩,
    ⟨_, zero, decodeBits_packFields widths (Finset.mem_singleton_self _) (Finset.mem_singleton_self _)⟩⟩

end Sys2Proof.Machine
end

section
/-! PROOFS. The ENCODE command (rules R100, R108, R125): its three outcomes in a ready state, and that BITS has no part
in which of them it is, nor in CHARS (rules R129, R174). -/

namespace Sys2Proof.Machine

theorem exec_encode (text : Text) (s : State) : exec (.encode text) s = execEncode text s := rfl

/-! ENCODE in a ready state. -/

section
variable {text : Text} {s : State} (ready : s.Ready)
include ready

theorem execEncode_badLength (long : Config.textMax < text.length) :
    execEncode text s = .next (raiseFault .badLength (commandWord (.encode text)) s) := by
  obtain ⟨live, configured⟩ := ready
  rw [execEncode, whenReady_ready _ _ _ live configured, if_pos long]

theorem execEncode_notLiteral (short : text.length ≤ Config.textMax)
    (token : encodeToken s.we s.wm (lex text) = none) : execEncode text s = .next (respond .inputError s) := by
  obtain ⟨live, configured⟩ := ready
  rw [execEncode, whenReady_ready _ _ _ live configured, if_neg (Nat.not_lt.mpr short)]
  simp only [token]

theorem execEncode_writes {v : Nat} (short : text.length ≤ Config.textMax)
    (token : encodeToken s.we s.wm (lex text) = some v) :
    execEncode text s = .next (writeBits (BitVec.ofNat 128 v) s) := by
  obtain ⟨live, configured⟩ := ready
  rw [execEncode, whenReady_ready _ _ _ live configured, if_neg (Nat.not_lt.mpr short)]
  simp only [token]

/-- The register takes the whole pattern of a literal (rules R23, R100). -/
theorem exists_encode_wrote {v : Nat} (widths : LegalWidths s.we s.wm) (short : text.length ≤ Config.textMax)
    (token : encodeToken s.we s.wm (lex text) = some v) :
    ∃ b : Bits, b.toNat = v ∧ exec (.encode text) s = .next (s.wrote b) := by
  refine ⟨BitVec.ofNat 128 v, toNat_ofNat_of_lt (n_le_of_legal widths) (encodeToken_lt widths.1 token), ?_⟩
  exact (exec_encode text s).trans (execEncode_writes ready short token)

end

/-- Below the sign bit an all-ones exponent and an all-ones mantissa are all ones (rule R89). -/
theorem patNan_eq (we wm : Nat) (s : Bool) :
    patNan we wm s = s.toNat * 2 ^ (we + wm) + (2 ^ (we + wm) - 1) := by
  have exps := Nat.two_pow_pos we
  have mans := Nat.two_pow_pos wm
  obtain ⟨e, he⟩ := Nat.exists_eq_add_of_lt exps
  rw [patNan, packFields, eOnes, add_assoc, pow_add, he, zero_add, Nat.add_sub_cancel, Nat.succ_mul]
  omega

/-- Settles O34, by the token: each literal's pattern is what `encodeToken` gives, and only an error has none. -/
theorem encodeWritesItsToken : Obligations.EncodeWritesItsToken := by
  intro text s ready widths short
  have sign : s.n - 1 = s.we + s.wm := by rw [State.n, totalBits]; omega
  cases token : lex text with
  | error => exact (exec_encode text s).trans (execEncode_notLiteral ready short (by rw [token]; rfl))
  | inf sg =>
    obtain ⟨b, value, run⟩ := exists_encode_wrote ready widths short (congrArg (encodeToken s.we s.wm) token)
    exact ⟨b, by rw [value, sign]; rfl, run⟩
  | nan sg =>
    obtain ⟨b, value, run⟩ := exists_encode_wrote ready widths short (congrArg (encodeToken s.we s.wm) token)
    exact ⟨b, by rw [value, sign, patNan_eq], run⟩
  | number sg coef x =>
    obtain ⟨b, value, run⟩ := exists_encode_wrote ready widths short (congrArg (encodeToken s.we s.wm) token)
    exact ⟨b, by rw [value, encoderFollowsTheExactRule s.we s.wm sg coef x widths], run⟩

/-- TEXT_MAX is one of the integers that rule R125 allows. -/
theorem textMax_range : 64 ≤ Config.textMax ∧ Config.textMax ≤ 65535 := by
  have := Config.textMaxExcess.isLt
  rw [Config.textMax]
  omega

/-- Settles O35: the length is checked before the text is read, and the empty text is read and is no literal. -/
theorem encodeTooLongFaults : Obligations.EncodeTooLongFaults := by
  refine ⟨textMax_range, fun s ready => ⟨fun text long => ?_, ?_⟩⟩
  · exact (exec_encode text s).trans (execEncode_badLength ready long)
  · exact (exec_encode [] s).trans (execEncode_notLiteral ready (Nat.zero_le _) rfl)

/-! States that differ in BITS. -/

/-- `s` with other contents of BITS. -/
def State.withBits (s : State) (v : Bits) : State := { s with bits := v }

/-- Whatever BITS holds, the command answers `r` and changes the other registers in the same way, and it keeps BITS. -/
def KeepsBits (i : Instr) (s : State) (r : Response) : Prop :=
  ∃ t : State, t.responses = s.responses ++ [r] ∧ ∀ v, exec i (s.withBits v) = .next (t.withBits v)

/-- A command that makes the common checks keeps BITS when it does not pass them (rules R183, R185, R186). -/
theorem keepsBits_of_not_ready {i : Instr} {s : State} {w : Word} {action : State → State}
    (h : ∀ s, exec i s = .next (whenReady w s action)) (notReady : ¬ s.Ready) :
    ∃ r, (∀ d, r ≠ .ok d) ∧ KeepsBits i s r := by
  cases halted : s.fault with
  | true =>
    exact ⟨.halted, by simp, respond .halted s, rfl, fun v =>
      (h _).trans (congrArg _ (whenReady_halted w (s.withBits v) action halted))⟩
  | false =>
    have unconfigured : s.cfgv = false := Bool.eq_false_iff.mpr fun configured => notReady ⟨halted, configured⟩
    exact ⟨.fault, by simp, raiseFault .notConfigured w s, rfl, fun v =>
      (h _).trans (congrArg _ (whenReady_unconfigured w (s.withBits v) action halted unconfigured))⟩

/-- ENCODE writes the same bit string whatever BITS holds, or it keeps BITS and does not answer OK (rule R129). -/
theorem encode_writes_or_keepsBits (text : Text) (s : State) :
    (∃ w, ∀ v, exec (.encode text) (s.withBits v) = .next (writeBits w s))
      ∨ ∃ r, (∀ d, r ≠ .ok d) ∧ KeepsBits (.encode text) s r := by
  by_cases notReady : ¬ s.Ready
  · exact .inr (keepsBits_of_not_ready (exec_encode text) notReady)
  have ready (v : Bits) : (s.withBits v).Ready := not_not.mp notReady
  obtain long | short := lt_or_ge Config.textMax text.length
  · exact .inr ⟨.fault, by simp, raiseFault .badLength (commandWord (.encode text)) s, rfl, fun v =>
      execEncode_badLength (ready v) long⟩
  cases token : encodeToken s.we s.wm (lex text) with
  | none =>
    exact .inr ⟨.inputError, by simp, respond .inputError s, rfl, fun v =>
      execEncode_notLiteral (ready v) short token⟩
  | some w => exact .inl ⟨BitVec.ofNat 128 w, fun v => execEncode_writes (ready v) short token⟩

/-- A command whose answer is read from other registers keeps BITS, whatever BITS holds. -/
theorem OnlyAnswers.keepsBits {i : Instr} {answer : State → RespData} {s : State} (answers : OnlyAnswers i answer)
    (ready : s.Ready) (unread : ∀ v, answer (s.withBits v) = answer s) : KeepsBits i s (.ok (answer s)) :=
  ⟨respond (.ok (answer s)) s, rfl, fun v => (answers (s.withBits v) ready).trans (by rw [unread]; rfl)⟩

/-- CHARS answers from the widths alone (rule R174). -/
theorem chars_keepsBits (s : State) : ∃ r, KeepsBits .chars s r := by
  by_cases ready : s.Ready
  · exact ⟨_, chars_onlyAnswers.keepsBits ready fun _ => rfl⟩
  · obtain ⟨r, -, keeps⟩ := keepsBits_of_not_ready (i := .chars) (fun _ => rfl) ready
    exact ⟨r, keeps⟩

/-- Settles O60: `s` is itself with its own BITS, so both runs have the one outcome. -/
theorem encodeAndCharsIgnoreTheBits : Obligations.EncodeAndCharsIgnoreTheBits := by
  intro s v
  refine ⟨fun text u u' run run' => ?_, fun u u' run run' => ?_⟩
  · obtain ⟨w, outcome⟩ | ⟨r, notOk, t, responses, outcome⟩ := encode_writes_or_keepsBits text s
    · cases (outcome s.bits).symm.trans run
      cases (outcome v).symm.trans run'
      exact ⟨rfl, fun _ => rfl, fun notOk => absurd rfl (notOk _)⟩
    · cases (outcome s.bits).symm.trans run
      cases (outcome v).symm.trans run'
      refine ⟨rfl, fun ⟨d, ok⟩ => absurd ?_ (notOk d), fun _ => ⟨rfl, rfl⟩⟩
      exact List.singleton_inj.mp (List.append_cancel_left (responses.symm.trans ok))
  · obtain ⟨r, t, -, outcome⟩ := chars_keepsBits s
    cases (outcome s.bits).symm.trans run
    cases (outcome v).symm.trans run'
    rfl

end Sys2Proof.Machine
end

section
/-! PROOFS. The number reader against the number grammar (rules R105, R106), and the texts that are an error (rule
R107). -/

namespace Sys2Proof.Machine

/-! Digit strings. -/

theorem isDigit_iff {b : Byte} : isDigit b = true ↔ 0x30 ≤ b.toNat ∧ b.toNat ≤ 0x39 := by
  rw [isDigit, Bool.and_eq_true, decide_eq_true_iff, decide_eq_true_iff]

theorem allDigits_iff {ds : Text} : AllDigits ds ↔ ∀ b ∈ ds, isDigit b = true := by
  simp only [AllDigits, isDigit_iff]

theorem allDigits_takeWhile (t : Text) : AllDigits (t.takeWhile isDigit) :=
  allDigits_iff.mpr fun _ => List.mem_takeWhile_imp

section
variable {ds t : Text} (digits : AllDigits ds) (stop : t.takeWhile isDigit = [])
include digits stop

/-- The reader takes a row of digits up to the first byte that is none. -/
theorem takeWhile_digits_append : (ds ++ t).takeWhile isDigit = ds := by
  rw [List.takeWhile_append_of_pos (allDigits_iff.mp digits), stop, List.append_nil]

theorem dropWhile_digits_append : (ds ++ t).dropWhile isDigit = t := by
  have whole := List.takeWhile_append_dropWhile (p := isDigit) (l := t)
  rw [stop, List.nil_append] at whole
  rw [List.dropWhile_append_of_pos (allDigits_iff.mp digits), whole]

end

/-- A row of digits has no sign to strip. -/
theorem signedText_of_allDigits {ds : Text} (digits : AllDigits ds) : SignedText ds false ds := by
  refine .inr (.inr ⟨rfl, rfl, ?_, ?_⟩) <;>
  · intro head
    have := digits _ (List.mem_of_head? head)
    simp at this

/-! The exponent part. -/

/-- The grammar's exponent after its letter: a sign as rule R102 reads one, and digits. -/
theorem expText_cons_iff {b : Byte} {rest : Text} {x : ℤ} : ExpText (b :: rest) x ↔ (b = 0x65 ∨ b = 0x45)
    ∧ ∃ s ds, SignedText rest s ds ∧ ds ≠ [] ∧ AllDigits ds
      ∧ x = if s then -(numeralValue ds : ℤ) else numeralValue ds := by
  constructor
  · intro exp
    cases exp with
    | unsigned _ _ letter nonempty digits =>
      exact ⟨letter, false, rest, signedText_of_allDigits digits, nonempty, digits, rfl⟩
    | plus _ ds letter nonempty digits => exact ⟨letter, false, ds, .inr (.inl ⟨rfl, rfl⟩), nonempty, digits, rfl⟩
    | minus _ ds letter nonempty digits => exact ⟨letter, true, ds, .inl ⟨rfl, rfl⟩, nonempty, digits, rfl⟩
  · rintro ⟨letter, s, ds, ⟨rfl, rfl⟩ | ⟨rfl, rfl⟩ | ⟨rfl, rfl, -, -⟩, nonempty, digits, rfl⟩
    · exact .minus b ds letter nonempty digits
    · exact .plus b ds letter nonempty digits
    · exact .unsigned b rest letter nonempty digits

theorem readExp_eq_some_iff {t : Text} {x : ℤ} : readExp t = some x ↔ ExpText t x := by
  cases t with
  | nil =>
    refine ⟨fun read => ?_, fun exp => ?_⟩
    · cases read; exact .absent
    · cases exp; rfl
  | cons b rest =>
    simp only [readExp, Option.ite_none_right_eq_some, Option.some.injEq, List.all_eq_true, ← allDigits_iff,
      digitsValue_eq_numeralValue, expText_cons_iff, signedText_iff]
    generalize splitSign rest = split
    refine and_congr_right fun _ => ⟨fun ⟨⟨nonempty, digits⟩, value⟩ => ?_, ?_⟩
    · exact ⟨split.1, split.2, rfl, nonempty, digits, value.symm⟩
    · rintro ⟨s, ds, rfl, nonempty, digits, rfl⟩
      exact ⟨⟨nonempty, digits⟩, rfl⟩

/-- After the exponent's letter, or at the end of the text, there is no digit and no point. -/
theorem ExpText.stops {t : Text} {x : ℤ} (exp : ExpText t x) :
    t.takeWhile isDigit = [] ∧ splitFraction t = ([], t) := by
  cases t with
  | nil => exact ⟨rfl, rfl⟩
  | cons b rest => obtain ⟨rfl | rfl, -⟩ := expText_cons_iff.mp exp <;> exact ⟨rfl, rfl⟩

/-! The number. -/

/-- `body` is the digits `i`, the digits `f` after a point, if there is one, and the rest `y` (rule R105). -/
def NumberParts (body i f y : Text) : Prop :=
  AllDigits i ∧ AllDigits f ∧ (body = i ++ 0x2E :: (f ++ y) ∨ (f = [] ∧ body = i ++ y))

/-- The grammar's three forms as one: digits before or after the point, and the value of rule R106. -/
theorem numberText_iff {body : Text} {coef : Nat} {x : ℤ} : NumberText body coef x ↔
    ∃ i f y e, NumberParts body i f y ∧ ¬ (i = [] ∧ f = []) ∧ ExpText y e
      ∧ numeralValue (i ++ f) = coef ∧ e - (f.length : ℤ) = x := by
  constructor
  · intro number
    cases number with
    | integer i y e nonempty digits exp =>
      exact ⟨i, [], y, x, ⟨digits, nofun, .inr ⟨rfl, rfl⟩⟩, fun empty => nonempty empty.1, exp, by simp, by simp⟩
    | pointed i f y e nonempty digits fraction exp =>
      exact ⟨i, f, y, e, ⟨digits, fraction, .inl rfl⟩, fun empty => nonempty empty.1, exp, rfl, rfl⟩
    | fraction f y e nonempty fraction exp =>
      exact ⟨[], f, y, e, ⟨nofun, fraction, .inl rfl⟩, fun empty => nonempty empty.2, exp, rfl, rfl⟩
  · rintro ⟨i, f, y, e, ⟨digits, fraction, rfl | ⟨rfl, rfl⟩⟩, nonempty, exp, rfl, rfl⟩
    · by_cases bare : i = []
      · subst bare
        exact .fraction f y e (fun empty => nonempty ⟨rfl, empty⟩) fraction exp
      · exact .pointed i f y e bare digits fraction exp
    · simpa using NumberText.integer i y e (fun empty => nonempty ⟨empty, rfl⟩) digits exp

/-- The reader's cuts are parts of the text. -/
theorem numberParts_read (body : Text) : NumberParts body (body.takeWhile isDigit)
    (splitFraction (body.dropWhile isDigit)).1 (splitFraction (body.dropWhile isDigit)).2 := by
  have whole := List.takeWhile_append_dropWhile (p := isDigit) (l := body)
  refine ⟨allDigits_takeWhile body, ?_⟩
  cases rest : body.dropWhile isDigit with
  | nil => exact ⟨nofun, .inr ⟨rfl, by rw [rest] at whole; exact whole.symm⟩⟩
  | cons b tail =>
    rw [rest] at whole
    by_cases point : b = 0x2E
    · rw [splitFraction, if_pos point, List.takeWhile_append_dropWhile, ← point]
      exact ⟨allDigits_takeWhile tail, .inl whole.symm⟩
    · rw [splitFraction, if_neg point]
      exact ⟨nofun, .inr ⟨rfl, whole.symm⟩⟩

/-- Parts that end in an exponent are the reader's cuts. -/
theorem NumberParts.eq_read {body i f y : Text} {e : ℤ} (parts : NumberParts body i f y) (exp : ExpText y e) :
    body.takeWhile isDigit = i ∧ splitFraction (body.dropWhile isDigit) = (f, y) := by
  obtain ⟨digits, fraction, rfl | ⟨rfl, rfl⟩⟩ := parts
  · rw [takeWhile_digits_append digits rfl, dropWhile_digits_append digits rfl, splitFraction, if_pos rfl,
      takeWhile_digits_append fraction exp.stops.1, dropWhile_digits_append fraction exp.stops.1]
    exact ⟨rfl, rfl⟩
  · rw [takeWhile_digits_append digits exp.stops.1, dropWhile_digits_append digits exp.stops.1]
    exact ⟨rfl, exp.stops.2⟩

theorem readNumber_of_parts {body i f y : Text} (s : Bool) {e : ℤ} (parts : NumberParts body i f y)
    (nonempty : ¬ (i = [] ∧ f = [])) (exp : ExpText y e) :
    readNumber s body = .number s (numeralValue (i ++ f)) (e - (f.length : ℤ)) := by
  obtain ⟨integer, fraction⟩ := parts.eq_read exp
  simp only [readNumber, integer, fraction, if_neg nonempty, readExp_eq_some_iff.mpr exp, digitsValue_eq_numeralValue]

/-- The reader accepts exactly the grammar's numbers, with their values (rules R105, R106). -/
theorem readNumber_eq_number_iff {s s' : Bool} {body : Text} {coef : Nat} {x : ℤ} :
    readNumber s body = .number s' coef x ↔ s = s' ∧ NumberText body coef x := by
  constructor
  · intro read
    have parts := numberParts_read body
    by_cases empty : body.takeWhile isDigit = [] ∧ (splitFraction (body.dropWhile isDigit)).1 = []
    · rw [readNumber, if_pos empty] at read
      cases read
    cases exponent : readExp (splitFraction (body.dropWhile isDigit)).2 with
    | none =>
      simp only [readNumber, if_neg empty, exponent] at read
      cases read
    | some e =>
      have exp := readExp_eq_some_iff.mp exponent
      rw [readNumber_of_parts s parts empty exp] at read
      cases read
      exact ⟨rfl, numberText_iff.mpr ⟨_, _, _, e, parts, empty, exp, rfl, rfl⟩⟩
  · rintro ⟨rfl, number⟩
    obtain ⟨i, f, y, e, parts, nonempty, exp, rfl, rfl⟩ := numberText_iff.mp number
    exact readNumber_of_parts s parts nonempty exp

theorem readNumber_eq_error_iff {s : Bool} {body : Text} :
    readNumber s body = .error ↔ ∀ coef x, ¬ NumberText body coef x := by
  constructor
  · intro error coef x number
    cases error.symm.trans (readNumber_eq_number_iff.mpr ⟨rfl, number⟩)
  · intro noNumber
    obtain error | ⟨coef, x, read⟩ := readNumber_cases s body
    · exact error
    · exact absurd (readNumber_eq_number_iff.mp read).2 (noNumber coef x)

/-! Numbers and words. -/

/-- A number begins with a digit or a point. -/
theorem NumberText.head {body : Text} {coef : Nat} {x : ℤ} (number : NumberText body coef x) :
    ∃ b rest, body = b :: rest ∧ 0x2E ≤ b.toNat ∧ b.toNat ≤ 0x39 := by
  obtain ⟨i, f, y, e, ⟨digits, -, form⟩, nonempty, -⟩ := numberText_iff.mp number
  cases i with
  | nil =>
    obtain rfl | ⟨empty, -⟩ := form
    · exact ⟨0x2E, _, rfl, by decide, by decide⟩
    · exact absurd ⟨rfl, empty⟩ nonempty
  | cons d ds =>
    obtain ⟨low, high⟩ := digits d List.mem_cons_self
    obtain rfl | ⟨-, rfl⟩ := form <;> exact ⟨d, _, rfl, by omega, high⟩

/-- A word of letters begins with a byte above the digits. -/
theorem not_numberText_of_word {body word : Text} {letter : Byte} (h : InAnyCase body (letter :: word))
    (lower : 0x61 ≤ letter.toNat) (coef : Nat) (x : ℤ) : ¬ NumberText body coef x := by
  intro number
  obtain ⟨b, rest, rfl, -, high⟩ := number.head
  obtain ⟨rfl | rfl, -⟩ := List.forall₂_cons.mp h
  · omega
  · have := letter.isLt
    bv_omega

theorem lex_eq_number_iff {text : Text} {s : Bool} {coef : Nat} {x : ℤ} :
    lex text = .number s coef x ↔ (splitSign text).1 = s ∧ NumberText (splitSign text).2 coef x := by
  rw [lex_eq]
  split_ifs with infinity nan
  · obtain inf | infinity := infinity
    · simp [not_numberText_of_word inf (by decide)]
    · simp [not_numberText_of_word infinity (by decide)]
  · simp [not_numberText_of_word nan (by decide)]
  · exact readNumber_eq_number_iff

/-- Settles O45: the body after the sign is unique, no word is a number, and the reader accepts exactly the grammar. -/
theorem lexerReadsExactlyTheGrammar : Obligations.LexerReadsExactlyTheGrammar := by
  intro text s coef x
  rw [exists_signedText_iff, lex_eq_number_iff]

/-! Errors. -/

theorem lex_eq_error_iff {text : Text} : lex text = .error ↔
    ¬ InAnyCase (splitSign text).2 wordInf ∧ ¬ InAnyCase (splitSign text).2 wordInfinity
      ∧ ¬ InAnyCase (splitSign text).2 wordNan ∧ ∀ coef x, ¬ NumberText (splitSign text).2 coef x := by
  rw [lex_eq]
  split_ifs with infinity nan
  · simp only [false_iff]
    rintro ⟨notInf, notInfinity, -⟩
    exact infinity.elim notInf notInfinity
  · simp [nan]
  · obtain ⟨notInf, notInfinity⟩ := not_or.mp infinity
    simp only [readNumber_eq_error_iff, notInf, notInfinity, nan, not_false_eq_true, true_and]

/-- A claim about every body is a claim about what `splitSign` returns. -/
theorem forall_signedText_iff {text : Text} {P : Text → Prop} :
    (∀ s body, SignedText text s body → P body) ↔ P (splitSign text).2 := by
  simp only [signedText_iff]
  exact ⟨fun all => all _ _ rfl, fun holds _ _ split => by rwa [split] at holds⟩

/-! The bytes of a literal are ASCII characters (rule R107). -/

/-- A byte from 0x80 on is no sign, so it is left in the body. -/
theorem mem_body_of_high {text body : Text} {s : Bool} {b : Byte} (signed : SignedText text s body) (mem : b ∈ text)
    (high : 0x80 ≤ b.toNat) : b ∈ body := by
  have notSign : b ≠ 0x2D ∧ b ≠ 0x2B := ⟨by rintro rfl; simp at high, by rintro rfl; simp at high⟩
  obtain ⟨-, rfl⟩ | ⟨-, rfl⟩ | ⟨-, rfl, -⟩ := signed
  · exact List.mem_of_ne_of_mem notSign.1 mem
  · exact List.mem_of_ne_of_mem notSign.2 mem
  · exact mem

/-- A word in any letter case holds no byte from 0x80 on. -/
theorem lt_of_mem_word {body word : Text} {b : Byte} (h : InAnyCase body word) (mem : b ∈ body)
    (letters : ∀ letter ∈ word, 0x61 ≤ letter.toNat ∧ letter.toNat ≤ 0x7A) : b.toNat < 0x80 := by
  induction h with
  | nil => cases mem
  | cons same _ ih =>
    obtain ⟨⟨low, high⟩, rest⟩ := List.forall_mem_cons.mp letters
    obtain rfl | mem := List.mem_cons.mp mem
    · obtain rfl | rfl := same <;> bv_omega
    · exact ih mem rest

theorem ExpText.lt_of_mem {t : Text} {x : ℤ} {b : Byte} (exp : ExpText t x) (mem : b ∈ t) : b.toNat < 0x80 := by
  have digit {ds : Text} (digits : AllDigits ds) (mem : b ∈ ds) : b.toNat < 0x80 := by
    have := (digits b mem).2
    omega
  cases t with
  | nil => cases mem
  | cons letter rest =>
    obtain ⟨letters, s, ds, signed, -, digits, -⟩ := expText_cons_iff.mp exp
    obtain rfl | mem := List.mem_cons.mp mem
    · obtain rfl | rfl := letters <;> decide
    · by_contra high
      have := (digits b (mem_body_of_high signed mem (not_lt.mp high))).2
      omega

theorem NumberText.lt_of_mem {body : Text} {coef : Nat} {x : ℤ} {b : Byte} (number : NumberText body coef x)
    (mem : b ∈ body) : b.toNat < 0x80 := by
  obtain ⟨i, f, y, e, ⟨digits, fraction, form⟩, -, exp, -⟩ := numberText_iff.mp number
  have part : b ∈ i ∨ b = 0x2E ∨ b ∈ f ∨ b ∈ y := by
    obtain rfl | ⟨-, rfl⟩ := form
    · simpa using mem
    · exact (List.mem_append.mp mem).imp_right fun inExp => .inr (.inr inExp)
  obtain mem | rfl | mem | mem := part
  · have := (digits b mem).2; omega
  · decide
  · have := (fraction b mem).2; omega
  · exact exp.lt_of_mem mem

/-- Settles O47: an error is what is no word and no number, and a literal has no byte from 0x80 on. -/
theorem everyOtherTextIsAnError : Obligations.EveryOtherTextIsAnError := by
  refine ⟨fun text => ?_, fun text b mem high => ?_, rfl⟩
  · rw [forall_signedText_iff, lex_eq_error_iff]
  · have inBody := mem_body_of_high (signedText_splitSign text) mem high
    have noWord {word : Text} (letters : ∀ letter ∈ word, 0x61 ≤ letter.toNat ∧ letter.toNat ≤ 0x7A) :
        ¬ InAnyCase (splitSign text).2 word := fun spelled => not_lt.mpr high (lt_of_mem_word spelled inBody letters)
    have noNumber (coef : Nat) (x : ℤ) : ¬ NumberText (splitSign text).2 coef x :=
      fun number => not_lt.mpr high (number.lt_of_mem inBody)
    exact lex_eq_error_iff.mpr ⟨noWord (by decide), noWord (by decide), noWord (by decide), noNumber⟩

end Sys2Proof.Machine
end

section
/-! PROOFS. The text of DECODE is a number of the grammar, with exactly the value that was laid out (rules R139, R141,
R142, R144). -/

namespace Sys2Proof.Machine

/-! The values of digit strings. -/

theorem numeralValue_append (a b : Text) : numeralValue (a ++ b) = numeralValue a * 10 ^ b.length + numeralValue b := by
  simp only [numeralValue, List.reverse_append, List.map_append, Nat.ofDigits_append, List.length_map,
    List.length_reverse]
  ring

theorem numeralValue_zeros (k : Nat) : numeralValue (List.replicate k 0x30) = 0 := by
  induction k with
  | zero => rfl
  | succ k ih => rw [List.replicate_succ', numeralValue_append, ih]; rfl

theorem digit_toNat {d : Nat} (h : d < 10) : (BitVec.ofNat 8 (0x30 + d)).toNat = 0x30 + d := by
  rw [BitVec.toNat_ofNat]
  omega

theorem allDigits_decimalDigits (n : Nat) : AllDigits (decimalDigits n) := by
  intro b mem
  obtain ⟨d, digit, rfl⟩ := List.mem_map.mp mem
  have := Nat.digits_lt_base (by decide : 1 < 10) (List.mem_reverse.mp digit)
  rw [digit_toNat this]
  omega

/-- Reading the decimal digits of a number back. -/
theorem numeralValue_decimalDigits (n : Nat) : numeralValue (decimalDigits n) = n := by
  have digits : (Nat.digits 10 n).map ((fun b : Byte => b.toNat - 0x30) ∘ fun d => BitVec.ofNat 8 (0x30 + d))
      = Nat.digits 10 n := by
    refine (List.map_congr_left fun d digit => ?_).trans (List.map_id _)
    rw [Function.comp_apply, digit_toNat (Nat.digits_lt_base (by decide) digit), Nat.add_sub_cancel_left, id]
  rw [numeralValue, decimalDigits, List.map_reverse, List.map_reverse, List.map_reverse, List.reverse_reverse,
    List.map_map, digits, Nat.ofDigits_digits]

theorem decimalDigits_ne_nil {n : Nat} (h : n ≠ 0) : decimalDigits n ≠ [] := by
  simpa [decimalDigits, Nat.digits_ne_nil_iff_ne_zero] using h

theorem decimalDigits_length {n p : Nat} (hp : 0 < p) (low : 10 ^ (p - 1) ≤ n) (high : n < 10 ^ p) :
    (decimalDigits n).length = p := by
  rw [← numeral_eq_decimalDigits p n hp low high, numeral_length]

/-! The parts of a text. -/

/-- Digits around a point, which without the point and after some zeros are the decimal digits of `n`. -/
theorem numberText_pointed {i f y : Text} {e x : ℤ} {n k : Nat}
    (digits : i ++ f = List.replicate k 0x30 ++ decimalDigits n) (nonempty : i ≠ []) (exp : ExpText y e)
    (last : e - (f.length : ℤ) = x) : NumberText (i ++ 0x2E :: (f ++ y)) n x := by
  have all : AllDigits (i ++ f) := by
    rw [digits]
    refine List.forall_mem_append.mpr ⟨fun b zero => ?_, allDigits_decimalDigits n⟩
    rw [List.eq_of_mem_replicate zero]
    decide
  obtain ⟨integer, fraction⟩ := List.forall_mem_append.mp all
  have value : numeralValue (i ++ f) = n := by
    rw [digits, numeralValue_append, numeralValue_zeros, zero_mul, zero_add, numeralValue_decimalDigits]
  simpa only [value, last] using NumberText.pointed i f y e nonempty integer fraction exp

/-- The exponent of the scientific form (rule R142). -/
theorem expText_scientific {x : ℤ} (h : x ≠ 0) :
    ExpText (0x65 :: (if 0 ≤ x then 0x2B else 0x2D) :: decimalDigits x.natAbs) x := by
  have nonempty := decimalDigits_ne_nil (Int.natAbs_ne_zero.mpr h)
  have digits := allDigits_decimalDigits x.natAbs
  have value := numeralValue_decimalDigits x.natAbs
  split_ifs with sign
  · have exp := ExpText.plus 0x65 _ (.inl rfl) nonempty digits
    rwa [value, Int.natAbs_of_nonneg sign] at exp
  · have exp := ExpText.minus 0x65 _ (.inl rfl) nonempty digits
    rwa [value, Int.ofNat_natAbs_of_nonpos (by omega), neg_neg] at exp

/-- A number after the sign that rule R141 writes is read with that sign. -/
theorem NumberText.signed {body : Text} {coef : Nat} {x : ℤ} (number : NumberText body coef x) (s : Bool) :
    SignedText ((if s then [0x2D] else []) ++ body) s body := by
  cases s with
  | true => exact .inl ⟨rfl, rfl⟩
  | false =>
    obtain ⟨b, rest, rfl, low, -⟩ := number.head
    refine .inr (.inr ⟨rfl, rfl, ?_, ?_⟩) <;>
    · intro head
      rw [Option.some.inj head] at low
      exact absurd low (by decide)

/-- In each of its four forms the text is a sign and a number of the coefficient's digits, with the exponent of their last
one (rules R139, R141, R142). -/
theorem LayoutText.exists_numberText {s : Bool} {coef p : Nat} {x10 : ℤ} {text : Text} (hp : 1 < p)
    (low : 10 ^ (p - 1) ≤ coef) (high : coef < 10 ^ p) (laid : LayoutText s coef x10 p text) :
    ∃ body, text = (if s then [0x2D] else []) ++ body ∧ NumberText body coef (x10 - p + 1) := by
  obtain ⟨positional, whole, small, scientific⟩ := laid
  have length := decimalDigits_length (by omega) low high
  have cut (k : Nat) : (decimalDigits coef).take k ++ (decimalDigits coef).drop k
      = List.replicate 0 0x30 ++ decimalDigits coef := List.take_append_drop k _
  have before (k : Nat) (hk : 0 < k) : (decimalDigits coef).take k ≠ [] := by
    rw [← List.length_pos_iff, List.length_take]
    omega
  have after (k : Nat) : ((decimalDigits coef).drop k).length = p - k := by rw [List.length_drop, length]
  obtain ⟨lower, upper⟩ | last | ⟨lower, upper⟩ | outside : (0 ≤ x10 ∧ x10 ≤ (p : ℤ) - 2) ∨ x10 = (p : ℤ) - 1
      ∨ (-6 ≤ x10 ∧ x10 ≤ -1) ∨ (x10 ≤ -7 ∨ (p : ℤ) ≤ x10) := by omega
  · refine ⟨_, ?_, numberText_pointed (cut (x10.toNat + 1)) (before _ (Nat.succ_pos _)) .absent ?_⟩
    · rw [positional lower upper]
      simp
    · rw [after]
      omega
  · refine ⟨_, whole last, ?_⟩
    have number := NumberText.integer (decimalDigits coef) [] 0 (by rw [← List.length_pos_iff]; omega)
      (allDigits_decimalDigits coef) .absent
    rw [numeralValue_decimalDigits, List.append_nil] at number
    rwa [last, sub_right_comm, sub_self, zero_sub, neg_add_cancel]
  · have zeros : [0x30] ++ (List.replicate (-x10 - 1).toNat 0x30 ++ decimalDigits coef)
        = List.replicate ((-x10 - 1).toNat + 1) 0x30 ++ decimalDigits coef := rfl
    refine ⟨_, ?_, numberText_pointed zeros (List.cons_ne_nil _ _) .absent ?_⟩
    · rw [small lower upper]
      simp
    · rw [List.length_append, List.length_replicate, length]
      omega
  · refine ⟨_, ?_, numberText_pointed (cut 1) (before 1 one_pos) (expText_scientific (x := x10) (by omega)) ?_⟩
    · rw [scientific outside]
      simp
    · rw [after]
      omega

/-- Settles O49: the laid-out text is a sign and a number of the grammar, which the lexer reads. -/
theorem layoutReadsBack : Obligations.LayoutReadsBack := by
  intro s coef x10 p hp low high
  have laid := layout_layoutText s x10 (by omega) low high
  obtain ⟨body, text, number⟩ := laid.exists_numberText (by omega) low high
  refine ⟨laid, coef, x10 - p + 1, ?_, rfl⟩
  rw [lexerReadsExactlyTheGrammar, text]
  exact ⟨body, number.signed s, number⟩

end Sys2Proof.Machine
end

section
/-! PROOFS. The renderer on every positive fraction (rules R139, R140), and the sign that begins DECODE's text (rules R143,
R149). -/

namespace Sys2Proof.Machine

/-- Settles O48: the shared renderer lemmas, on any positive fraction. -/
theorem rendererFollowsTheExactRule : Obligations.RendererFollowsTheExactRule := fun _ p num den digits =>
  ⟨render_cast num den p, render_digits num den (by omega)⟩

/-! The first character. -/

/-- The text begins with a minus sign exactly when `s` holds, and what follows the sign begins with no sign of its own. -/
def BeginsWithSign (s : Bool) (text : Text) : Prop :=
  ∃ b rest, text = signText s ++ b :: rest ∧ b ≠ 0x2B ∧ b ≠ 0x2D

section
variable {s : Bool} {text : Text}

theorem BeginsWithSign.length_pos (h : BeginsWithSign s text) : 1 ≤ text.length := by
  obtain ⟨b, rest, rfl, -⟩ := h
  rw [List.length_append, List.length_cons]
  omega

theorem BeginsWithSign.head?_ne_plus (h : BeginsWithSign s text) : text.head? ≠ some 0x2B := by
  obtain ⟨b, rest, rfl, notPlus, -⟩ := h
  rw [signText_eq]
  cases s with
  | true => exact mt Option.some.inj (by decide)
  | false => exact mt Option.some.inj notPlus

theorem BeginsWithSign.head?_eq_minus_iff (h : BeginsWithSign s text) : text.head? = some 0x2D ↔ s = true := by
  obtain ⟨b, rest, rfl, -, notMinus⟩ := h
  rw [signText_eq]
  cases s with
  | true => exact iff_of_true rfl rfl
  | false => exact iff_of_false (mt Option.some.inj notMinus) Bool.false_ne_true

end

/-- What follows the sign in a laid-out text is a number of the grammar, which begins with no sign (rules R141, R142). -/
theorem layout_beginsWithSign (s : Bool) {coef p : Nat} (x10 : ℤ) (hp : 1 < p) (low : 10 ^ (p - 1) ≤ coef)
    (high : coef < 10 ^ p) : BeginsWithSign s (layout s coef x10 p) := by
  obtain ⟨body, text, number⟩ := (layout_layoutText s x10 (by omega) low high).exists_numberText hp low high
  obtain ⟨b, rest, rfl, first, -⟩ := number.head
  refine ⟨b, rest, by rw [text, signText_eq], ?_, ?_⟩ <;>
  · rintro rfl
    exact absurd first (by decide)

/-- Only a Normal, a Denormal and an Infinity show the sign bit (rule R149). -/
def showsSign : FpClass → Bool
  | .normal | .denormal | .infinity => true
  | .nan | .zero => false

theorem showsSign_iff (c : FpClass) : showsSign c = true ↔ c = .normal ∨ c = .denormal ∨ c = .infinity := by
  cases c <;> decide

theorem decodeBits_text_of_finite {we wm : Nat} {b : Bits} (finite : IsFinite we wm b) :
    BeginsWithSign (signOf we wm b) (decodeBits we wm b).text := by
  obtain ⟨low, high⟩ := digitsOf_range finite
  have p := digitCount_cases wm
  rw [decodeBits_text finite]
  exact layout_beginsWithSign _ _ (by omega) low high

/-- The sign of DECODE's text, by class: a number or `Infinity` after the sign bit's sign, `NaN` and `0` after none. -/
theorem decodeBits_text_beginsWithSign (we wm : Nat) (b : Bits) :
    BeginsWithSign (signOf we wm b && showsSign (classOf we wm b)) (decodeBits we wm b).text := by
  cases cls : classOf we wm b with
  | normal =>
    rw [showsSign, Bool.and_true]
    exact decodeBits_text_of_finite (.inr cls)
  | denormal =>
    rw [showsSign, Bool.and_true]
    exact decodeBits_text_of_finite (.inl cls)
  | infinity =>
    rw [showsSign, Bool.and_true, decodeBits_infinity cls]
    exact ⟨0x49, _, rfl, by decide, by decide⟩
  | nan =>
    rw [showsSign, Bool.and_false, decodeBits_nan cls]
    exact ⟨0x4E, _, rfl, by decide, by decide⟩
  | zero =>
    rw [showsSign, Bool.and_false, decodeBits_zero cls]
    exact ⟨0x30, _, rfl, by decide, by decide⟩

/-- Settles O50: the class decides whether the text begins with the sign bit's sign, and the digits bound its length. -/
theorem decodeTextSignAndLength : Obligations.DecodeTextSignAndLength := by
  intro we wm b widths
  have signed := decodeBits_text_beginsWithSign we wm b
  obtain ⟨cls, sign, -⟩ := decodeBits_shared (we := we) (wm := wm) (b := b)
  refine ⟨signed.length_pos, decodeBits_text_length widths, signed.head?_ne_plus, ?_⟩
  rw [signed.head?_eq_minus_iff, cls, sign, Bool.and_eq_true, showsSign_iff]

end Sys2Proof.Machine
end

section
/-! PROOFS. SETALL and INVERT (rules R157, R158), and the algebra of the bit operations (rule R159). Bit strings are
compared register bit by register bit. -/

namespace Sys2Proof.Machine

/-! The new bit strings as numbers. -/

theorem lowOnes_toNat {n : Nat} (width : n ≤ 128) : (lowOnes n).toNat = 2 ^ n - 1 :=
  toNat_ofNat_of_lt width (Nat.sub_lt (Nat.two_pow_pos n) one_pos)

theorem allSetBits_toNat {n : Nat} (width : n ≤ 128) (v : Bool) :
    (allSetBits n v).toNat = v.toNat * (2 ^ n - 1) := by
  cases v with
  | false => exact (Nat.zero_mul _).symm
  | true => exact (lowOnes_toNat width).trans (Nat.one_mul _).symm

/-- INVERT complements the register bits below `n` and clears the others. -/
theorem invertedBits_getLsbD {n : Nat} (width : n ≤ 128) (b : Bits) (k : Nat) :
    (invertedBits n b).getLsbD k = (decide (k < n) && !b.getLsbD k) := by
  rw [invertedBits, BitVec.getLsbD_and, BitVec.getLsbD_not, lowOnes_getLsbD width]
  by_cases below : k < n
  · simp [below, below.trans_le width]
  · simp [below]

theorem invertedBits_toNat {n : Nat} {b : Bits} (width : n ≤ 128) (low : b.toNat < 2 ^ n) :
    (invertedBits n b).toNat = 2 ^ n - 1 - b.toNat := by
  refine Nat.eq_of_testBit_eq fun k => ?_
  rw [Nat.sub_sub, Nat.add_comm 1, Nat.testBit_two_pow_sub_succ low, BitVec.testBit_toNat, BitVec.testBit_toNat,
    invertedBits_getLsbD width]

/-! SETALL and INVERT in a ready state. -/

theorem exec_setall_writes {s : State} (v : Bool) (ready : s.Ready) :
    exec (.setall v) s = .next (writeBits (allSetBits s.n v) s) :=
  congrArg _ (whenReady_ready _ _ _ ready.1 ready.2)

theorem exec_invert_writes {s : State} (ready : s.Ready) :
    exec .invert s = .next (writeBits (invertedBits s.n s.bits) s) :=
  congrArg _ (whenReady_ready _ _ _ ready.1 ready.2)

/-- Settles O28. -/
theorem setallSetsEveryBit : Obligations.SetallSetsEveryBit :=
  fun v s ready width => ⟨allSetBits s.n v, allSetBits_toNat width v, exec_setall_writes v ready⟩

/-- Settles O29: the invariants bound `N` and BITS, so no difference is cut off at 0. -/
theorem invertComplementsEveryBit : Obligations.InvertComplementsEveryBit := by
  rintro s ⟨live, configured, widths, low⟩
  exact ⟨invertedBits s.n s.bits, invertedBits_toNat (n_le_of_legal widths) low, exec_invert_writes ⟨live, configured⟩⟩

/-! The laws of one and of two operations (rule R159). -/

theorem toggledBits_toggledBits_same (n i : Nat) (b : Bits) : toggledBits n i (toggledBits n i b) = b := by
  rw [toggledBits, toggledBits, BitVec.xor_assoc, BitVec.xor_self, BitVec.xor_zero]

theorem toggledBits_comm (n i j : Nat) (b : Bits) :
    toggledBits n i (toggledBits n j b) = toggledBits n j (toggledBits n i b) := by
  simp only [toggledBits, BitVec.xor_assoc, BitVec.xor_comm (indexMask n i)]

/-- `(2^N − 1) − ((2^N − 1) − BITS)` is BITS. -/
theorem invertedBits_invertedBits {n : Nat} {b : Bits} (width : n ≤ 128) (low : b.toNat < 2 ^ n) :
    invertedBits n (invertedBits n b) = b := by
  apply BitVec.eq_of_toNat_eq
  rw [invertedBits_toNat width (invertedBits_toNat_lt n b), invertedBits_toNat width low]
  omega

theorem allSetBits_getLsbD {n : Nat} (width : n ≤ 128) (v : Bool) (k : Nat) :
    (allSetBits n v).getLsbD k = (decide (k < n) && v) := by
  cases v with
  | false => simp [allSetBits]
  | true => simp [allSetBits, lowOnes_getLsbD width]

/-- The range from index 0 on is the whole string. -/
theorem rangeSetBits_zero {n : Nat} {b : Bits} (width : n ≤ 128) (low : b.toNat < 2 ^ n) (v : Bool) :
    rangeSetBits n 0 v b = allSetBits n v := by
  refine BitVec.eq_of_getLsbD_eq fun k _ => ?_
  rw [rangeSetBits_getLsbD width, allSetBits_getLsbD width, Nat.sub_zero]
  by_cases below : k < n
  · simp [below]
  · simp [below, toNat_lt_two_pow_iff.mp low k (not_lt.mp below)]

/-- A register bit is in the longer of the two ranges exactly when it is in one of them. -/
theorem rangeSetBits_rangeSetBits {n : Nat} (width : n ≤ 128) (i j : Nat) (v : Bool) (b : Bits) :
    rangeSetBits n j v (rangeSetBits n i v b) = rangeSetBits n (min i j) v b := by
  refine BitVec.eq_of_getLsbD_eq fun k _ => ?_
  have longer : k < n - min i j ↔ k < n - j ∨ k < n - i := by omega
  simp only [rangeSetBits_getLsbD width, longer, ite_or]

/-! A sequence of toggles. -/

/-- TOGGLE for each index of a list, first index first. -/
def toggledEach (n : Nat) (indices : List Nat) (b : Bits) : Bits :=
  indices.foldl (fun acc k => toggledBits n k acc) b

/-- Toggles at different indices invert exactly the register bits of their indices, whatever the order. -/
theorem toggledEach_getLsbD {n : Nat} (width : n ≤ 128) {indices : List Nat} (nodup : indices.Nodup)
    (legal : ∀ i ∈ indices, i < n) (b : Bits) {k : Nat} (hk : k < n) :
    (toggledEach n indices b).getLsbD k = (b.getLsbD k ^^ decide (n - 1 - k ∈ indices)) := by
  induction indices generalizing b with
  | nil => simp [toggledEach]
  | cons i rest ih =>
    obtain ⟨fresh, nodup⟩ := List.nodup_cons.mp nodup
    obtain ⟨hi, legal⟩ := List.forall_mem_cons.mp legal
    have tail := ih nodup legal (toggledBits n i b)
    rw [toggledBits_getLsbD width hi] at tail
    refine tail.trans ?_
    by_cases here : n - 1 - k = i
    · have position : k = n - 1 - i := by omega
      rw [if_pos position, here]
      simp [fresh]
    · have position : k ≠ n - 1 - i := by omega
      simp [position, here]

theorem toggledEach_toNat_lt {n : Nat} (width : n ≤ 128) {indices : List Nat} (legal : ∀ i ∈ indices, i < n) {b : Bits}
    (low : b.toNat < 2 ^ n) : (toggledEach n indices b).toNat < 2 ^ n := by
  induction indices generalizing b with
  | nil => exact low
  | cons i rest ih =>
    obtain ⟨hi, legal⟩ := List.forall_mem_cons.mp legal
    exact ih legal (toggledBits_toNat_lt width hi low)

/-- Two strings of `n` bits are equal when they agree on the register bits below `n`. -/
theorem eq_of_getLsbD_eq_below {n : Nat} {b c : Bits} (lowB : b.toNat < 2 ^ n) (lowC : c.toNat < 2 ^ n)
    (same : ∀ k < n, b.getLsbD k = c.getLsbD k) : b = c := by
  refine BitVec.eq_of_getLsbD_eq fun k _ => ?_
  by_cases below : k < n
  · exact same k below
  · have above := not_lt.mp below
    rw [toNat_lt_two_pow_iff.mp lowB k above, toNat_lt_two_pow_iff.mp lowC k above]

/-- Toggling the indices where two strings differ, each once and in any order, leads from the one to the other. -/
theorem toggledEach_eq {n : Nat} {b c : Bits} {indices : List Nat} (width : n ≤ 128) (nodup : indices.Nodup)
    (differ : ∀ i, i ∈ indices ↔ i < n ∧ bitAt n b i ≠ bitAt n c i) (lowB : b.toNat < 2 ^ n) (lowC : c.toNat < 2 ^ n) :
    toggledEach n indices b = c := by
  have legal : ∀ i ∈ indices, i < n := fun i hi => ((differ i).mp hi).1
  refine eq_of_getLsbD_eq_below (toggledEach_toNat_lt width legal lowB) lowC fun k hk => ?_
  have index : n - 1 - k < n := by omega
  have position : n - 1 - (n - 1 - k) = k := by omega
  have toggled : n - 1 - k ∈ indices ↔ b.getLsbD k ≠ c.getLsbD k := by
    rw [differ, bitAt, bitAt, position, and_iff_right index]
  rw [toggledEach_getLsbD width nodup legal b hk]
  simp only [toggled]
  cases b.getLsbD k <;> cases c.getLsbD k <;> rfl

/-- INVERT differs from its operand at every index, so it is the toggle of all of them. -/
theorem toggledEach_eq_invertedBits {n : Nat} {b : Bits} {order : List Nat} (width : n ≤ 128) (low : b.toNat < 2 ^ n)
    (all : order.Perm (List.range n)) : toggledEach n order b = invertedBits n b := by
  refine toggledEach_eq width (all.nodup_iff.mpr List.nodup_range) (fun i => ?_) low (invertedBits_toNat_lt n b)
  have complemented (hi : i < n) : bitAt n b i ≠ bitAt n (invertedBits n b) i := by
    have position : n - 1 - i < n := by omega
    simp [bitAt, invertedBits_getLsbD width, position]
  rw [all.mem_iff, List.mem_range, iff_self_and]
  exact complemented

/-- The indices below `n` where two strings differ. -/
def differingIndices (n : Nat) (b c : Bits) : List Nat :=
  (List.range n).filter fun i => bitAt n b i != bitAt n c i

theorem mem_differingIndices {n i : Nat} {b c : Bits} :
    i ∈ differingIndices n b c ↔ i < n ∧ bitAt n b i ≠ bitAt n c i := by
  rw [differingIndices, List.mem_filter, List.mem_range, bne_iff_ne]

theorem differingIndices_nodup (n : Nat) (b c : Bits) : (differingIndices n b c).Nodup :=
  List.nodup_range.filter _

theorem differingIndices_length_le (n : Nat) (b c : Bits) : (differingIndices n b c).length ≤ n :=
  (List.length_filter_le _ _).trans_eq List.length_range

/-- Settles O52. Inverting and reaching another string are both the toggle of the indices where two strings differ. -/
theorem bitOperationAlgebra : Obligations.BitOperationAlgebra := by
  intro n i j b c v width _ _ lowB lowC
  exact ⟨toggledBits_toggledBits_same n i b, toggledBits_comm n i j b, invertedBits_invertedBits width lowB,
    fun _ all => (toggledEach_eq_invertedBits width lowB all).symm, rangeSetBits_zero width lowB v,
    rangeSetBits_rangeSetBits width i j v b, differingIndices n b c, differingIndices_length_le n b c,
    fun _ hk => (mem_differingIndices.mp hk).1,
    toggledEach_eq width (differingIndices_nodup n b c) (fun _ => mem_differingIndices) lowB lowC⟩

end Sys2Proof.Machine
end

section
/-! PROOFS. The texts of GROUPED and HEX, read back character by character (rules R165 to R169). -/

namespace Sys2Proof.Machine

/-! GROUPED (rules R165, R166). -/

/-- The character of one bit. -/
theorem digitChar_boolToNat (v : Bool) : digitChar v.toNat = if v then 0x31 else 0x30 := by
  cases v <;> rfl

theorem bitChars_getElem? (n : Nat) (b : Bits) (i : Nat) {count j : Nat} (h : j < count) :
    (bitChars n b i count)[j]? = some (digitChar (bitAt n b (i + j)).toNat) := by
  simp [bitChars, h]

/-- The GROUPED text with its sign character and its two spaces as single characters. -/
theorem groupedText_eq (we wm : Nat) (b : Bits) :
    groupedText we wm b = digitChar (bitAt (totalBits we wm) b 0).toNat :: 0x20
      :: (bitChars (totalBits we wm) b 1 we ++ 0x20 :: bitChars (totalBits we wm) b (1 + we) wm) := by
  have sign : bitChars (totalBits we wm) b 0 1 = [digitChar (bitAt (totalBits we wm) b 0).toNat] := rfl
  have space : ascii " " = [0x20] := by decide
  simp [groupedText, sign, space]

theorem groupedText_length (we wm : Nat) (b : Bits) : (groupedText we wm b).length = totalBits we wm + 2 := by
  simp only [groupedText_eq, List.length_cons, List.length_append, bitChars_length, totalBits]
  omega

theorem groupedText_firstSpace (we wm : Nat) (b : Bits) : (groupedText we wm b)[1]? = some 0x20 := by
  simp [groupedText_eq]

theorem groupedText_secondSpace (we wm : Nat) (b : Bits) : (groupedText we wm b)[2 + we]? = some 0x20 := by
  simp [groupedText_eq, Nat.add_comm 2 we]

theorem groupedText_sign (we wm : Nat) (b : Bits) :
    (groupedText we wm b)[0]? = some (digitChar (bitAt (totalBits we wm) b 0).toNat) := by
  simp [groupedText_eq]

theorem groupedText_exponent {we j : Nat} (wm : Nat) (b : Bits) (h : j < we) :
    (groupedText we wm b)[j + 2]? = some (digitChar (bitAt (totalBits we wm) b (1 + j)).toNat) := by
  have inField : j < (bitChars (totalBits we wm) b 1 we).length := by rwa [bitChars_length]
  rw [groupedText_eq, List.getElem?_cons_succ, List.getElem?_cons_succ, List.getElem?_append_left inField,
    bitChars_getElem? _ _ _ h]

theorem groupedText_mantissa {wm j : Nat} (we : Nat) (b : Bits) (h : j < wm) :
    (groupedText we wm b)[we + j + 3]? = some (digitChar (bitAt (totalBits we wm) b (1 + we + j)).toNat) := by
  have afterField : (bitChars (totalBits we wm) b 1 we).length ≤ we + j + 1 := by rw [bitChars_length]; omega
  have offset : we + j + 1 - we = j + 1 := by omega
  rw [groupedText_eq, List.getElem?_cons_succ, List.getElem?_cons_succ, List.getElem?_append_right afterField,
    bitChars_length, offset, List.getElem?_cons_succ, bitChars_getElem? _ _ _ h]

/-- Bit `j` stands after the sign, exponent or mantissa bits before it and one space for each field that has ended. -/
theorem groupedText_bit {we wm j : Nat} (b : Bits) (h : j < totalBits we wm) :
    (groupedText we wm b)[if j = 0 then 0 else if j ≤ we then j + 1 else j + 2]?
      = some (digitChar (bitAt (totalBits we wm) b j).toNat) := by
  split_ifs with atSign inExponent
  · rw [atSign, groupedText_sign]
  · obtain ⟨k, rfl⟩ := Nat.exists_eq_add_of_le' (Nat.pos_of_ne_zero atSign)
    rw [groupedText_exponent wm b inExponent, Nat.add_comm]
  · obtain ⟨k, rfl⟩ := Nat.exists_eq_add_of_lt (not_le.mp inExponent)
    have inMantissa : k < wm := by rw [totalBits] at h; omega
    have index : we + k + 1 = 1 + we + k := by omega
    rw [groupedText_mantissa we b inMantissa, index]

/-- Settles O30. -/
theorem groupedShowsTheFields : Obligations.GroupedShowsTheFields := by
  intro s ready
  refine ⟨_, grouped_onlyAnswers s ready, groupedText_length _ _ _, groupedText_firstSpace _ _ _,
    groupedText_secondSpace _ _ _, fun j index => ?_⟩
  rw [groupedText_bit s.bits index, digitChar_boolToNat]
  rfl

/-! HEX (rules R167 to R169). -/

theorem hexDigit_digitChar {d : Nat} (h : d < 16) : hexDigit (digitChar d) = some d := by
  revert d
  decide

/-- Every character of a numeral is the character of a digit below the base. -/
theorem exists_digit_of_mem_numeral {b k v : Nat} {c : Byte} (base : 0 < b) (h : c ∈ numeral b k v) :
    ∃ d < b, c = digitChar d := by
  induction k generalizing v with
  | zero => cases h
  | succ k ih =>
    rw [numeral, List.mem_append, List.mem_singleton] at h
    obtain front | last := h
    · exact ih front
    · exact ⟨v % b, Nat.mod_lt v base, last⟩

/-- The number of a hexadecimal text, its most significant digit first. -/
def hexTextValue (text : Text) : Nat := text.foldl (fun acc c => acc * 16 + (hexDigit c).getD 0) 0

theorem hexTextValue_append_singleton (text : Text) (c : Byte) :
    hexTextValue (text ++ [c]) = hexTextValue text * 16 + (hexDigit c).getD 0 := by
  simp [hexTextValue]

/-- Reading a hexadecimal numeral back gives the number, when it has enough digits for it. -/
theorem hexTextValue_numeral {k v : Nat} (h : v < 16 ^ k) : hexTextValue (numeral 16 k v) = v := by
  induction k generalizing v with
  | zero => exact (Nat.lt_one_iff.mp h).symm
  | succ k ih =>
    have front : v / 16 < 16 ^ k := Nat.div_lt_of_lt_mul (by rwa [← pow_succ'])
    have last : v % 16 < 16 := Nat.mod_lt v (by decide)
    rw [numeral, hexTextValue_append_singleton, ih front, hexDigit_digitChar last]
    exact Nat.div_add_mod' v 16

/-- `ceil(n/4)` hexadecimal digits hold every number of `n` bits. -/
theorem two_pow_le_sixteen_pow (n : Nat) : 2 ^ n ≤ 16 ^ ((n + 3) / 4) :=
  calc 2 ^ n ≤ 2 ^ (4 * ((n + 3) / 4)) := Nat.pow_le_pow_right two_pos (by omega)
    _ = 16 ^ ((n + 3) / 4) := pow_mul 2 4 _

/-- Settles O31. -/
theorem hexShowsTheNumber : Obligations.HexShowsTheNumber := by
  rintro s ⟨live, configured, _, low⟩
  refine ⟨_, hex_onlyAnswers s ⟨live, configured⟩, numeral_length _ _ _, fun c hc => ?_, ?_⟩
  · obtain ⟨d, below, rfl⟩ := exists_digit_of_mem_numeral (by decide) hc
    rw [hexDigit_digitChar below, Option.isSome_some]
  · exact hexTextValue_numeral (low.trans_le (two_pow_le_sixteen_pow s.n))

end Sys2Proof.Machine
end

section
/-! PROOFS. The common checks (rules R185 to R187), the fault (rule R183) and RDSTAT (rule R188), command by command: which
check comes before a command's own, and which word a fault records. -/

namespace Sys2Proof.Machine

/-! Which check each command passes first (rule R187). -/

/-- Every command but CONFIG and RDSTAT needs a live and configured unit, and a fault of it records its word. -/
theorem exists_exec_eq_whenReady {i : Instr} (notConfig : ∀ we wm, i ≠ .config we wm) (notRdstat : i ≠ .rdstat) :
    ∃ action, ∀ s, exec i s = .next (whenReady (commandWord i) s action) := by
  cases i with
  | config we wm => exact absurd rfl (notConfig we wm)
  | rdstat => exact absurd rfl notRdstat
  | rdfmt | encode | decode | ldbits | rdbits | toggle | setrange | setall | invert | grouped | hex | chars =>
    exact ⟨_, fun _ => rfl⟩

/-- A halted unit executes no command but RDSTAT, CONFIG included (rule R185). -/
theorem exec_halted {i : Instr} {s : State} (notRdstat : i ≠ .rdstat) (halted : s.fault = true) :
    exec i s = .next (respond .halted s) := by
  by_cases config : ∃ we wm, i = .config we wm
  · obtain ⟨we, wm, rfl⟩ := config
    exact congrArg _ (whenLive_halted s _ halted)
  · push Not at config
    obtain ⟨action, ready⟩ := exists_exec_eq_whenReady config notRdstat
    rw [ready, whenReady_halted _ s action halted]

/-- Settles O16: the check for a configured unit comes before any check of the command's own. -/
theorem unconfiguredUnitFaults : Obligations.UnconfiguredUnitFaults := by
  intro i s live unconfigured notConfig notRdstat
  obtain ⟨action, ready⟩ := exists_exec_eq_whenReady notConfig notRdstat
  rw [ready, whenReady_unconfigured _ s action live unconfigured]
  rfl

/-- Settles O33, by the arm of RDSTAT, which no check guards. -/
theorem rdstatReadsTheFaultState : Obligations.RdstatReadsTheFaultState := fun _ => rfl

/-- Settles O8. -/
theorem idleStepHoldsTheState : Obligations.IdleStepHoldsTheState := fun _ => step_idle

/-! The halted state (rule R185). -/

/-- One pair is RDSTAT: its word, with no payload. -/
theorem decode_eq_rdstat_iff {w : Word} {payload : Text} :
    decode w payload = .ok .rdstat ↔ w = 0x0E000000 ∧ payload = [] := by
  constructor
  · intro decoded
    obtain ⟨-, encoded⟩ := encodeInvertsDecode w payload .rdstat decoded
    exact Prod.mk.inj encoded.symm
  · rintro ⟨rfl, rfl⟩
    exact decodeInvertsEncode .rdstat rfl

theorem rejectCommand_halted (w : Word) {s : State} (halted : s.fault = true) :
    rejectCommand w s = respond .halted s := if_pos halted

/-- Settles O15, by the move: a reset, RDSTAT, another command, or a pair that is no command. -/
theorem haltedUnitIgnoresCommands : Obligations.HaltedUnitIgnoresCommands := by
  intro s move rest halted hp
  cases move with
  | reset => exact ⟨_, step_reset hp, rfl⟩
  | command w payload =>
    dsimp only
    split
    next rdstat =>
      rw [step_decoded hp (decode_eq_rdstat_iff.mpr rdstat), rdstatReadsTheFaultState, ← halted]
    next other =>
      cases decoded : decode w payload with
      | error e =>
        rw [step_rejected hp decoded]
        exact congrArg _ (rejectCommand_halted w halted)
      | ok i =>
        have notRdstat : i ≠ .rdstat := fun h => other (decode_eq_rdstat_iff.mp (h ▸ decoded))
        rw [step_decoded hp decoded]
        exact exec_halted notRdstat halted

/-! The fault (rule R183). -/

theorem rejectCommand_effect (w : Word) (s : State) : Effect w s (rejectCommand w s) := by
  rw [rejectCommand]
  split
  next halted => exact .halted halted
  next live => exact .faulted .illegalCmd (Bool.eq_false_of_not_eq_true live)

/-- A step that takes a command has an outcome of `Effect` for the word that was issued: the word a command records is
the one it was decoded from. -/
theorem step_effect {s t : State} {w : Word} {payload : Text} {rest : List HostMove}
    (hp : s.pending = .command w payload :: rest) (hs : step s = .next t) :
    Effect w { s with pending := rest } t := by
  cases decoded : decode w payload with
  | ok i =>
    obtain ⟨-, encoded⟩ := encodeInvertsDecode w payload i decoded
    have word : commandWord i = w := congrArg Prod.fst encoded
    obtain ⟨u, hu, effect⟩ := exec_effect i { s with pending := rest }
    rw [step_decoded hp decoded, hu] at hs
    cases hs
    rwa [word] at effect
  | error e =>
    rw [step_rejected hp decoded] at hs
    cases hs
    exact rejectCommand_effect w _

/-- Settles O19: of the outcomes for the issued word only a raised fault answers FAULT. -/
theorem faultIsPrecise : Obligations.FaultIsPrecise := by
  intro s t w payload rest hp hs answer
  cases step_effect hp hs with
  | faulted c live =>
    obtain ⟨low, high⟩ := c.code_range
    exact ⟨live, c.code, low, high, rfl⟩
  | halted | notLiteral | wrote | configured | read => simp at answer

end Sys2Proof.Machine
end

section
/-! PROOFS. Hardware reset as a step: the claim on the registers it clears (rules R200, R202). -/

namespace Sys2Proof.Machine

/-- Settles O9: the step is `hardwareReset` of the state with the move taken, and that one's fields are known. -/
theorem resetStepClearsTheFlags : Obligations.ResetStepClearsTheFlags := by
  intro s rest hp
  exact ⟨_, step_reset hp, hardwareReset_cfgv _, hardwareReset_fault _, hardwareReset_fcause _, hardwareReset_fcmd _,
    hardwareReset_pending _, hardwareReset_responses _⟩

end Sys2Proof.Machine
end
